-- ==== Sys2Proof/Word.lean ====
section
/-! DEFINITION. The widths of the block's words (00_scope.md R11, R12; 30_encoding.md R60, R69). -/

namespace Sys2Proof

/-- UInt8: a register address, a register value, a device address (R12). -/
abbrev Byte := BitVec 8

/-- Int32: the scale factor register, as its 32-bit pattern (R12, 10_state.md R26). -/
abbrev Word32 := BitVec 32

/-- One command word (30_encoding.md R60). -/
abbrev CommandWord := BitVec 64

/-- One response word (30_encoding.md R69). -/
abbrev ResponseWord := BitVec 16

end Sys2Proof
end

