-- ==== Sys2Proof/Config.lean ====
section
/-! DEFINITION. What the spec leaves to the implementation: the two open parameters (00_scope.md R10) and the free
contents of target registers (20_memory.md R40, R55). None has a value anyone can read. -/

namespace Sys2Proof

/-- `PRESCALE_VAL`, the value of init step 1 (00_scope.md R10, 92_eei_decisions.md D16; log 8). -/
opaque Config.prescaleVal : Byte

/-- `MODE1_WAKE_VAL`, the value of init step 6 (00_scope.md R10, 92_eei_decisions.md D17; log 8). -/
opaque Config.mode1WakeVal : Byte

/-- The draw behind the content of a target register after a bus write that answered ERR or was abandoned by a reset
(20_memory.md R55, 70_reset_and_hazards.md R143, 93 U3 and U8; log 5): applied to a counter, so each draw is its own. -/
opaque Config.freeByte : Nat → Byte

/-- What a target register holds while nothing is known of its content: one byte for each life of the chip and each address
(20_memory.md R40: every register holds one byte; 93 U9: any value; log 6). A life ends when the chip is power-cycled or
reset. -/
opaque Config.chipByte : Nat → Nat → Byte

end Sys2Proof
end

