-- ==== Sys2Proof/Syntax.lean ====
section
/-! DEFINITION. The command set v1: the four rows of spec/opcode_table.json (30_encoding.md R61, R75). -/

namespace Sys2Proof

/-- A legal command, as `decode` of R66 names it: the argument is the integer `sint32(ARG)` (R63), the channel is the
index 1..16 (R62). -/
inductive Instr where
  /-- `setMultiplier v` (40_trim.md R80). -/
  | setMultiplier (v : Int)
  /-- `setZeroOffset v` (40_trim.md R81). -/
  | setZeroOffset (v : Int)
  /-- `setScaleFactor v` (40_trim.md R82). -/
  | setScaleFactor (v : Int)
  /-- `writeAngle ch, deg` (42_angle.md R100). -/
  | writeAngle (ch : Nat) (deg : Int)
deriving DecidableEq, Repr

end Sys2Proof
end

