-- ==== Sys2Proof/WellFormed.lean ====
section
/-! DEFINITION. Which commands a command word can spell (30_encoding.md R62, R63, R73). -/

namespace Sys2Proof

/-- An argument in −2^31..2^31−1 (R63). -/
abbrev FitsInt32 (v : Int) : Prop := -2147483648 ≤ v ∧ v ≤ 2147483647

/-- A channel index in 1..16 (R62). -/
abbrev IsChannel (ch : Nat) : Prop := 1 ≤ ch ∧ ch ≤ 16

/-- The command has an encoding: its argument fits 32 bits and its channel is one of the sixteen. -/
abbrev Instr.WellFormed : Instr → Prop
  | .setMultiplier v => FitsInt32 v
  | .setZeroOffset v => FitsInt32 v
  | .setScaleFactor v => FitsInt32 v
  | .writeAngle ch deg => IsChannel ch ∧ FitsInt32 deg

/-- `Instr.WellFormed` as a check that evaluates. -/
def Instr.wellFormed : Instr → Bool
  | .setMultiplier v => decide (FitsInt32 v)
  | .setZeroOffset v => decide (FitsInt32 v)
  | .setScaleFactor v => decide (FitsInt32 v)
  | .writeAngle ch deg => decide (IsChannel ch) && decide (FitsInt32 deg)

end Sys2Proof
end

