-- ==== Sys2Proof/Decode.lean ====
section
/-! DEFINITION. The command decoder and encoder (30_encoding.md R60 to R68, R75). -/

namespace Sys2Proof

/-- `w[63:60]` (R60). -/
def opField (w : CommandWord) : BitVec 4 := w.extractLsb' 60 4

/-- `w[59:56]` (R60, R62). -/
def chField (w : CommandWord) : BitVec 4 := w.extractLsb' 56 4

/-- `w[55:32]` (R60, R64). -/
def rsvField (w : CommandWord) : BitVec 24 := w.extractLsb' 32 24

/-- `w[31:0]` (R60, R63). -/
def argField (w : CommandWord) : Word32 := w.extractLsb' 0 32

/-- `sint32` (00_scope.md R13): the 32-bit field as two's complement. -/
def sint32 (a : Word32) : Int := a.toInt

/-- Why a word is an illegal command (R67). -/
inductive Illegal where
  /-- `RSV` is not zero (R64). -/
  | reservedBits
  /-- `OP` is 0x0 or 0x5..0xF (R61). -/
  | noSuchOperation
  /-- `CH` is not zero on a setter (R65). -/
  | channelOnSetter
deriving DecidableEq, Repr

/-- A setter is legal only with `CH = 0` (R65, R66). -/
def setterOr (ch : BitVec 4) (i : Instr) : Except Illegal Instr :=
  if ch = 0 then .ok i else .error .channelOnSetter

/-- `decode` of R66: total, and every word outside the opcode map is refused by name. -/
def decode (w : CommandWord) : Except Illegal Instr :=
  if rsvField w ≠ 0 then .error .reservedBits
  else if opField w = 0x1 then setterOr (chField w) (.setMultiplier (sint32 (argField w)))
  else if opField w = 0x2 then setterOr (chField w) (.setZeroOffset (sint32 (argField w)))
  else if opField w = 0x3 then setterOr (chField w) (.setScaleFactor (sint32 (argField w)))
  else if opField w = 0x4 then .ok (.writeAngle ((chField w).toNat + 1) (sint32 (argField w)))
  else .error .noSuchOperation

/-- The fields put together at their places, `RSV = 0` (R60, R64). -/
def commandWord (op ch : BitVec 4) (v : Int) : CommandWord :=
  BitVec.ofNat 64 (op.toNat * 2 ^ 60 + ch.toNat * 2 ^ 56 + (BitVec.ofInt 32 v).toNat)

/-- The word of a well-formed command (R61, R62, R75). -/
def encode : Instr → CommandWord
  | .setMultiplier v => commandWord 0x1 0 v
  | .setZeroOffset v => commandWord 0x2 0 v
  | .setScaleFactor v => commandWord 0x3 0 v
  | .writeAngle ch deg => commandWord 0x4 (BitVec.ofNat 4 (ch - 1)) deg

/-- One row of the opcode map of R75. -/
structure OpcodeRow where
  mnemonic : String
  mask : CommandWord
  pattern : CommandWord
deriving DecidableEq, Repr

/-- The row of `setMultiplier` (R75). -/
def rowSetMultiplier : OpcodeRow := ⟨"setMultiplier", 0xFFFFFFFF00000000, 0x1000000000000000⟩

/-- The row of `setZeroOffset` (R75). -/
def rowSetZeroOffset : OpcodeRow := ⟨"setZeroOffset", 0xFFFFFFFF00000000, 0x2000000000000000⟩

/-- The row of `setScaleFactor` (R75). -/
def rowSetScaleFactor : OpcodeRow := ⟨"setScaleFactor", 0xFFFFFFFF00000000, 0x3000000000000000⟩

/-- The row of `writeAngle` (R75). -/
def rowWriteAngle : OpcodeRow := ⟨"writeAngle", 0xF0FFFFFF00000000, 0x4000000000000000⟩

/-- The complete opcode map of R75. -/
def opcodeMap : List OpcodeRow := [rowSetMultiplier, rowSetZeroOffset, rowSetScaleFactor, rowWriteAngle]

/-- The row a command belongs to. -/
def rowOf : Instr → OpcodeRow
  | .setMultiplier _ => rowSetMultiplier
  | .setZeroOffset _ => rowSetZeroOffset
  | .setScaleFactor _ => rowSetScaleFactor
  | .writeAngle _ _ => rowWriteAngle

/-- `(w & mask) = match` (R75). -/
abbrev OpcodeRow.Matches (r : OpcodeRow) (w : CommandWord) : Prop := w &&& r.mask = r.pattern

/-- The low `nbits` bits of `w` as a command word; a command is one 64-bit word (R68). -/
def tableWord (nbits w : Nat) : CommandWord := BitVec.ofNat 64 (w % 2 ^ nbits)

/-- What the decoder reads from a table word, none where it refuses. -/
def decodeTableWord (nbits w : Nat) : Option Instr :=
  match decode (tableWord nbits w) with
  | .ok i => some i
  | .error _ => none

end Sys2Proof
end

