-- ==== Sys2Proof/Machine/Constants.lean ====
section
/-! DEFINITION. The fixed constants of the block: the table of 00_scope.md R9, under the table's names. -/

namespace Sys2Proof.Machine

/-- `DEV_ADDR`: device address of every bus write. -/
def devAddr : Byte := 0x6A
/-- `NCH`: number of channels. -/
def nch : Nat := 16
/-- `CH_BASE0`: base register of channel 1. -/
def chBase0 : Nat := 0x08
/-- `CH_STRIDE`: register stride between channels. -/
def chStride : Nat := 4
/-- `REG_MODE1`. -/
def regMode1 : Byte := 0x00
/-- `REG_ALL_ON_L` (20_memory.md R43). -/
def regAllOnL : Byte := 0xFA
/-- `REG_ALL_ON_H` (20_memory.md R43). -/
def regAllOnH : Byte := 0xFB
/-- `REG_ALL_OFF_L` (20_memory.md R43). -/
def regAllOffL : Byte := 0xFC
/-- `REG_ALL_OFF_H` (20_memory.md R43). -/
def regAllOffH : Byte := 0xFD
/-- `REG_PRESCALE`. -/
def regPrescale : Byte := 0xFE
/-- `MULT_MIN`. -/
def multMin : Int := 113
/-- `MULT_MAX`. -/
def multMax : Int := 226
/-- `ZOFF_MIN`. -/
def zoffMin : Int := 0x66
/-- `ZOFF_MAX`. -/
def zoffMax : Int := 0xCC
/-- `MULT_RESET`. -/
def multReset : Byte := 226
/-- `ZOFF_RESET`. -/
def zoffReset : Byte := 0x66
/-- `SCALE_RESET`. -/
def scaleReset : Word32 := 80
/-- `DEG_MIN`: lower floor applied to the angle. -/
def degMin : Int := 1
/-- `DIVISOR` of the pulse computation. -/
def divisor : Int := 10000
/-- `HB_THRESHOLD`: pulse values above this set the high bit. -/
def hbThreshold : Int := 0xFF
/-- `INIT_CENTER`: value of init step 4. -/
def initCenter : Byte := 0x66

end Sys2Proof.Machine
end

