-- ==== Sys2Proof/Machine/State.lean ====
section
/-! DEFINITION. The state of the block (10_state.md R20 to R34), its ports, and the target register space. -/

namespace Sys2Proof.Machine

/-- `PHASE` (10_state.md R29): BUSY from acceptance of a command until its response. -/
inductive Phase where
  | idle
  | busy
deriving DecidableEq, Repr

/-- `STEP` (10_state.md R29): 1..6 for the initialization writes, then the two channel writes. -/
inductive SeqStep where
  | init1
  | init2
  | init3
  | init4
  | init5
  | init6
  | chLo
  | chHi
deriving DecidableEq, Repr

/-- The values latched for the command (10_state.md R29). -/
structure Latches where
  /-- the channel index -/
  ch : Nat
  /-- the floored angle -/
  d : Int
  /-- the computed low byte -/
  lo : Byte
  /-- the computed high-bit byte -/
  hb : Byte
deriving DecidableEq, Repr

/-- The transport's answer to one transaction (30_encoding.md R71). No answer is an `answers` list that has run out. -/
inductive Answer where
  | ok
  | err
deriving DecidableEq, Repr

/-- One transaction on the bus-writer port (30_encoding.md R70). -/
structure BusWrite where
  dev : Byte
  reg : Byte
  val : Byte
deriving DecidableEq, Repr

/-- How a transaction ended: with one of the transport's two answers (R71), or abandoned by a reset while it was
outstanding (70_reset_and_hazards.md R143). -/
inductive TxResult where
  | ok
  | err
  | abandoned
deriving DecidableEq, Repr

/-- A finished transaction, as the log of the bus-writer port holds it. -/
structure BusRecord where
  write : BusWrite
  result : TxResult
deriving DecidableEq, Repr

/-- What the outside may do to the chip behind the block's back (70_reset_and_hazards.md R148; log 12). -/
inductive ChipEvent where
  /-- another bus master writes a register -/
  | written (reg val : Byte)
  /-- the chip is power-cycled or reset: what its registers then hold is not stated -/
  | lost
deriving DecidableEq, Repr

/-- The target register space (20_memory.md R40): every register 0x00..0xFF holds one byte. The cells list, in rising order of
address, those whose byte is not the free one an unlisted register of this life of the chip holds (log 6). -/
structure Memory where
  /-- the MODEL's own counter of the chip's lives, from one loss of its contents to the next (R148; log 6) -/
  life : Nat
  /-- the listed registers -/
  cells : List Host.Cell
deriving DecidableEq, Repr

/-- Nothing listed, in the chip's first life. -/
def Memory.reset : Memory := ⟨0, []⟩

/-- The machine: the four architectural elements (R20), the sequencer (R29), the ports, the target register space and the
model's own draw counter. -/
structure State where
  /-- `MULT` (R23) -/
  mult : Byte
  /-- `ZOFF` (R24) -/
  zoff : Byte
  /-- `SCALE` (R26), read through `sint32` -/
  scale : Word32
  /-- `INIT` (R27) -/
  init : Bool
  /-- `PHASE` (R29) -/
  phase : Phase
  /-- `STEP` (R29) -/
  seqStep : SeqStep
  /-- the latched values (R29) -/
  latch : Latches
  /-- command words presented and not yet taken, oldest first (R147; log 9) -/
  port : List CommandWord
  /-- the transport's answers to the next bus writes, oldest first (R71, R137; log 1) -/
  answers : List Answer
  /-- the reset input (R140; log 3) -/
  resetIn : Bool
  /-- what the outside does to the chip next, oldest first (R148; log 12) -/
  chipEvents : List ChipEvent
  /-- the responses given, oldest first (R69; log 11) -/
  responses : List ResponseWord
  /-- the transactions finished, oldest first (R56, R57; log 11) -/
  busLog : List BusRecord
  /-- the target register space (R40, R42; log 7) -/
  chip : Memory
  /-- the model's own counter behind free register contents (R55; log 5) -/
  draws : Nat
deriving DecidableEq, Repr

/-- The latches at reset: unspecified and never read while IDLE (R29); zero here (log 4). -/
def Latches.reset : Latches := ⟨0, 0, 0, 0⟩

/-- The machine right after reset (10_state.md R33, 70_reset_and_hazards.md R141), nothing presented, nothing issued. -/
def State.reset : State where
  mult := multReset
  zoff := zoffReset
  scale := scaleReset
  init := false
  phase := .idle
  seqStep := .init1
  latch := Latches.reset
  port := []
  answers := []
  resetIn := false
  chipEvents := []
  responses := []
  busLog := []
  chip := Memory.reset
  draws := 0

/-- Reasons for the machine to stop. There is none: an error ends the command and is reported in its response
(60_exceptions.md R127), and a transport that never answers leaves the block waiting (R137). The type is empty. -/
inductive Fault where
deriving DecidableEq, Repr

/-- Reasons for the model to refuse an instruction. -/
inductive Refusal where
  /-- Raised only by an arm of `exec` whose instruction has no meaning yet; no arm raises it. Safe: the model stops. -/
  | notModelled (mnemonic : String)
deriving DecidableEq, Repr

end Sys2Proof.Machine
end

