-- ==== Sys2Proof/Machine/Operands.lean ====
section
/-! DEFINITION. The values a command works on: clamps, exact arithmetic, register addresses, the initialization table
(00_scope.md R13, R14; 20_memory.md R42 to R47; 41_init.md R91; 42_angle.md R101 to R103). -/

namespace Sys2Proof.Machine

/-- `clamp(v, lo, hi)` (00_scope.md R14). -/
def clamp (v lo hi : Int) : Int := min (max v lo) hi

/-- `clampMultiplier` (40_trim.md R84). -/
def clampMultiplier (v : Int) : Int := clamp v multMin multMax

/-- `clampZeroOffset` (40_trim.md R84). -/
def clampZeroOffset (v : Int) : Int := clamp v zoffMin zoffMax

/-- `floor_div(a, b)` (00_scope.md R13): rounds toward minus infinity. -/
def floorDiv (a b : Int) : Int := a.fdiv b

/-- The angle floored at 1, with no upper bound (42_angle.md R101). -/
def floorAngle (deg : Int) : Int := max deg degMin

/-- `wide = d * SCALE * MULT`, exact (42_angle.md R102). -/
def wide (d scale mult : Int) : Int := d * scale * mult

/-- `pulse = floor_div(wide, 10000) + ZOFF` (42_angle.md R102). -/
def pulseOf (d scale mult zoff : Int) : Int := floorDiv (wide d scale mult) divisor + zoff

/-- The pulse value of angle `d` under the trims the state holds (42_angle.md R102). -/
def State.pulse (s : State) (d : Int) : Int := pulseOf d (sint32 s.scale) s.mult.toNat s.zoff.toNat

/-- `PULSE_L(i) = 0x08 + 4*(i-1)` (20_memory.md R44). -/
def pulseL (ch : Nat) : Byte := BitVec.ofNat 8 (chBase0 + chStride * (ch - 1))

/-- `PULSE_H(i) = PULSE_L(i) + 1` (20_memory.md R45). -/
def pulseH (ch : Nat) : Byte := pulseL ch + 1

/-- The six initialization writes, register and value, in order (41_init.md R91, R98). -/
def initSequence : List (Byte × Byte) :=
  [(regPrescale, Config.prescaleVal), (regAllOnL, 0x00), (regAllOnH, 0x00),
   (regAllOffL, initCenter), (regAllOffH, 0x00), (regMode1, Config.mode1WakeVal)]

/-- The registers the block may write (20_memory.md R47). -/
def emittedRegs : List Byte :=
  [regMode1, regAllOnL, regAllOnH, regAllOffL, regAllOffH, regPrescale]
    ++ (List.range nch).flatMap fun k => [BitVec.ofNat 8 (0x08 + 4 * k), BitVec.ofNat 8 (0x09 + 4 * k)]

/-- The bytes of a transaction on the wire, in order: register address, then value (20_memory.md R49, R51). -/
def BusWrite.payload (w : BusWrite) : List Byte := [w.reg, w.val]

end Sys2Proof.Machine
end

