-- ==== Sys2Proof/Machine/Flags.lean ====
section
/-! DEFINITION. The bits the block computes: the high bit and low byte of a pulse (42_angle.md R104 to R106) and the
response word (30_encoding.md R69). `INIT` is the block's only flag (10_state.md R28); its one setter is in Ops. -/

namespace Sys2Proof.Machine

/-- The high-bit byte: 1 if `pulse > 0xFF`, else 0 (42_angle.md R104). -/
def highByte (pulse : Int) : Byte := if pulse > hbThreshold then 1 else 0

/-- The low byte: `pulse mod 256` (42_angle.md R105). -/
def lowByte (pulse : Int) : Byte := BitVec.ofInt 8 pulse

/-- `E = 256*hb + lo`, what the two channel registers carry (42_angle.md R106). -/
def carried (pulse : Int) : Nat := 256 * (highByte pulse).toNat + (lowByte pulse).toNat

/-- The three statuses ever produced (30_encoding.md R69). -/
inductive Status where
  | ok
  | transportError
  | illegalCommand
deriving DecidableEq, Repr

/-- The `STATUS` code (30_encoding.md R69). -/
def Status.code : Status → Byte
  | .ok => 0x00
  | .transportError => 0x01
  | .illegalCommand => 0x02

/-- The response word: `INFO` in bits 15:8, `STATUS` in bits 7:0 (30_encoding.md R69). -/
def responseWord (st : Status) (info : Byte) : ResponseWord := info ++ st.code

/-- `STATUS` of a response word (R69). -/
def statusField (r : ResponseWord) : Byte := r.extractLsb' 0 8

/-- `INFO` of a response word (R69). -/
def infoField (r : ResponseWord) : Byte := r.extractLsb' 8 8

end Sys2Proof.Machine
end

