-- ==== Sys2Proof/Machine/Ops.lean ====
section
/-! DEFINITION. The named operations: the target register space, one bus transaction, the sequencer, the answer to a
command, the command port, reset and what the outside does to the chip. -/

namespace Sys2Proof.Machine

/-! ### The target register space (20_memory.md R40) -/

/-- What an unlisted register `a` holds: a free byte (log 6). -/
def Memory.unlisted (m : Memory) (a : Nat) : Byte := Config.chipByte m.life a

/-- The canonical form: addresses strictly rising, each a one-byte address, and no cell that says what an unlisted register
holds anyway. -/
abbrev Memory.wf (m : Memory) : Prop :=
  (m.cells.map Prod.fst).Pairwise (· < ·) ∧ ∀ c ∈ m.cells, c.1 < 256 ∧ c.2 ≠ m.unlisted c.1

/-- The byte listed for `a`. -/
def cellAt : List Host.Cell → Nat → Option Byte
  | [], _ => none
  | (k, b) :: cs, a => if a = k then some b else cellAt cs a

/-- The list with `b` at `a`, in its place. -/
def putCell : List Host.Cell → Nat → Byte → List Host.Cell
  | [], a, b => [(a, b)]
  | (k, c) :: cs, a, b =>
    if a < k then (a, b) :: (k, c) :: cs
    else if a = k then (a, b) :: cs
    else (k, c) :: putCell cs a b

/-- The list without `a`. -/
def dropCell (cs : List Host.Cell) (a : Nat) : List Host.Cell := cs.filter fun c => c.1 != a

/-- The byte register `a` holds (20_memory.md R40). -/
def Memory.read (m : Memory) (a : Nat) : Byte := (cellAt m.cells a).getD (m.unlisted a)

/-- Register `a` now holds `b`; the canonical form is kept. -/
def Memory.write (m : Memory) (a : Nat) (b : Byte) : Memory :=
  { m with cells := if b = m.unlisted a then dropCell m.cells a else putCell m.cells a b }

/-- The chip's contents are lost: every register holds a free byte again, of a new life (70_reset_and_hazards.md R148). -/
def Memory.lose (m : Memory) : Memory := ⟨m.life + 1, []⟩

/-- The content of the register at a register address. -/
def State.chipReg (s : State) (r : Byte) : Byte := s.chip.read r.toNat

/-! ### Answering a command (30_encoding.md R69; 60_exceptions.md R127)

This is all there is to an error as well: nothing is saved, no mode changes, control moves nowhere. -/

/-- Ends the command: one response, and `PHASE` returns to IDLE (10_state.md R29). DESIGN CHOICE (log 21): STEP and the latched
values stay as the command left them. -/
def State.respond (s : State) (st : Status) (info : Byte) : State :=
  { s with phase := .idle, responses := s.responses ++ [responseWord st info] }

/-- `respond(OK)` (00_scope.md R16): `INFO` is 0. -/
def State.respondOk (s : State) : State := s.respond .ok 0x00

/-- `raise IllegalCommand()` (00_scope.md R16, 60_exceptions.md R122): `INFO` is 0, nothing else happens. DESIGN CHOICE
(log 22): taken and answered in one step. -/
def State.respondIllegal (s : State) : State := s.respond .illegalCommand 0x00

/-! ### The bus-writer port -/

/-- Register and value of the write at each `STEP` (41_init.md R91, 42_angle.md R107). -/
def writeAt (l : Latches) : SeqStep → Byte × Byte
  | .init1 => (regPrescale, Config.prescaleVal)
  | .init2 => (regAllOnL, 0x00)
  | .init3 => (regAllOnH, 0x00)
  | .init4 => (regAllOffL, initCenter)
  | .init5 => (regAllOffH, 0x00)
  | .init6 => (regMode1, Config.mode1WakeVal)
  | .chLo => (pulseL l.ch, l.lo)
  | .chHi => (pulseH l.ch, l.hb)

/-- A transaction to the one device (30_encoding.md R70). -/
def toDevice (w : Byte × Byte) : BusWrite := ⟨devAddr, w.1, w.2⟩

/-- The write `STEP` stands at. -/
def State.currentWrite (s : State) : BusWrite := toDevice (writeAt s.latch s.seqStep)

/-- The outstanding bus write (10_state.md R30): the block holds it while it waits for the transport. -/
def State.outstanding (s : State) : Option BusWrite :=
  match s.phase with
  | .idle => none
  | .busy => some s.currentWrite

/-- The transaction is over: it joins the log (20_memory.md R56, R57). -/
def State.logWrite (s : State) (r : TxResult) : State :=
  { s with busLog := s.busLog ++ [⟨s.currentWrite, r⟩] }

/-- The transport delivered the byte: the register holds it (70_reset_and_hazards.md R150, R151). -/
def State.deliver (s : State) : State :=
  { s with chip := s.chip.write s.currentWrite.reg.toNat s.currentWrite.val }

/-- The register's content is open (20_memory.md R55): a free value, a fresh one each time (log 5). -/
def State.leaveOpen (s : State) : State :=
  { s with chip := s.chip.write s.currentWrite.reg.toNat (Config.freeByte s.draws), draws := s.draws + 1 }

/-! ### The sequencer (10_state.md R29; 41_init.md R98; 42_angle.md R100) -/

/-- `STEP` moves on. -/
def State.goTo (s : State) (p : SeqStep) : State := { s with seqStep := p }

/-- The channel phase begins: the pulse of the latched angle is computed and its two bytes latched (42_angle.md R100 to
R105), and the low byte's write is issued (R107). -/
def State.enterChannel (s : State) : State :=
  { s with
    seqStep := .chLo
    latch := { s.latch with lo := lowByte (s.pulse s.latch.d), hb := highByte (s.pulse s.latch.d) } }

/-- What follows a write that answered OK: the next write of the command (20_memory.md R56); after the sixth `INIT <- 1`
and the channel phase (41_init.md R93); after the last the response (42_angle.md R100). -/
def State.advance (s : State) : State :=
  match s.seqStep with
  | .init1 => s.goTo .init2
  | .init2 => s.goTo .init3
  | .init3 => s.goTo .init4
  | .init4 => s.goTo .init5
  | .init5 => s.goTo .init6
  | .init6 => { s with init := true }.enterChannel
  | .chLo => s.goTo .chHi
  | .chHi => s.respondOk

/-- The transport answers the outstanding write. OK: the command goes on. ERR: `raise TransportError(reg)`
(00_scope.md R16, 41_init.md R94, 42_angle.md R109): the command ends with the failing register in `INFO`. DESIGN CHOICE
(log 19): a write takes effect at the chip when the transport answers it, and not while it is outstanding. -/
def State.transact (s : State) : Answer → State
  | .ok => ((s.logWrite .ok).deliver).advance
  | .err => ((s.logWrite .err).leaveOpen).respond .transportError s.currentWrite.reg

/-- The sequencer runs for as long as a write is outstanding and the transport answers; what it does not use of the answers
is kept. With no answer left it stays BUSY, its write outstanding (10_state.md R30, 60_exceptions.md R137). -/
def State.serve (s : State) : List Answer → State
  | [] => { s with answers := [] }
  | a :: as =>
    match s.phase with
    | .idle => { s with answers := a :: as }
    | .busy => State.serve (s.transact a) as

/-- The sequencer runs on with the answers the transport has given. -/
def State.resume (s : State) : State := s.serve s.answers

/-- A `writeAngle` is accepted: `PHASE` is BUSY, channel and floored angle are latched, and the first write is issued, of
the initialization sequence exactly when `INIT = 0` (41_init.md R90, 42_angle.md R100, R101). -/
def State.acceptAngle (s : State) (ch : Nat) (deg : Int) : State :=
  let s' := { s with phase := .busy, latch := { s.latch with ch := ch, d := floorAngle deg } }
  match s.init with
  | true => s'.enterChannel
  | false => s'.goTo .init1

/-! ### The command port (70_reset_and_hazards.md R147) -/

/-- A command presented while BUSY is held by the port, behind those already there (log 9). -/
def State.hold (s : State) (w : CommandWord) : State := { s with port := s.port ++ [w] }

/-- A command is presented to the block: IDLE takes it, BUSY leaves it at the port (R147). -/
def State.present (s : State) (i : Instr) (effect : State → State) : State :=
  match s.phase with
  | .idle => effect s
  | .busy => s.hold (encode i)

/-- The state whose next step takes the command word `w`: it is the port's oldest, the block is IDLE, no reset is asserted
and nothing happens to the chip first (log 10). -/
def State.loadCommand (s : State) (w : CommandWord) : State :=
  { s with port := w :: s.port, phase := .idle, resetIn := false, chipEvents := [] }

/-! ### Reset (70_reset_and_hazards.md R140 to R144) -/

/-- A bus write outstanding when reset comes: the block gives it up; whether it lands is open (R143, 93 U8). Its answer
goes to no one (log 3). DESIGN CHOICE (log 20): what it does at the chip, it does in the reset step and not later. -/
def State.abandonWrite (s : State) : State :=
  match s.phase with
  | .idle => s
  | .busy => { (s.logWrite .abandoned).leaveOpen with answers := s.answers.tail }

/-- The block's own elements take their reset values (R141); the chip, the port and what is outside keep theirs
(R144; log 3). -/
def State.resetBlock (s : State) : State :=
  { s with
    mult := State.reset.mult, zoff := State.reset.zoff, scale := State.reset.scale, init := State.reset.init,
    phase := State.reset.phase, seqStep := State.reset.seqStep, latch := State.reset.latch, resetIn := false }

/-- Reset asserted: no response is given and no later bus write is issued (R142, R143). -/
def State.applyReset (s : State) : State := s.abandonWrite.resetBlock

/-! ### The chip, seen from outside (70_reset_and_hazards.md R148) -/

/-- The chip changes and the block does not notice. -/
def State.applyChipEvent (s : State) : ChipEvent → State
  | .written reg val => { s with chip := s.chip.write reg.toNat val }
  | .lost => { s with chip := s.chip.lose }

end Sys2Proof.Machine
end

