-- ==== Sys2Proof/Machine/Angle.lean ====
section
/-! DEFINITION. `writeAngle` (42_angle.md R100), with the initialization sequence as its first phase (41_init.md). -/

namespace Sys2Proof.Machine

/-- `writeAngle ch, deg` (42_angle.md R100): accepted, then run as far as the transport answers. -/
def execWriteAngle (ch : Nat) (deg : Int) (s : State) : Host.Outcome State Fault Refusal :=
  .next (s.present (.writeAngle ch deg) fun t => (t.acceptAngle ch deg).resume)

end Sys2Proof.Machine
end

