-- ==== Sys2Proof/Machine/Trim.lean ====
section
/-! DEFINITION. The three setters (40_trim.md). None issues a bus write or touches INIT (R83). DESIGN CHOICE (log 22):
each is taken and answered in one step, so no reset comes between its acceptance and its response. -/

namespace Sys2Proof.Machine

/-- `MULT <- clamp(v, 113, 226)` (40_trim.md R80). -/
def State.storeMult (s : State) (v : Int) : State := { s with mult := BitVec.ofInt 8 (clampMultiplier v) }

/-- `ZOFF <- clamp(v, 0x66, 0xCC)` (40_trim.md R81). -/
def State.storeZoff (s : State) (v : Int) : State := { s with zoff := BitVec.ofInt 8 (clampZeroOffset v) }

/-- `SCALE <- v` (40_trim.md R82). -/
def State.storeScale (s : State) (v : Int) : State := { s with scale := BitVec.ofInt 32 v }

/-- `setMultiplier v` (40_trim.md R80). -/
def execSetMultiplier (v : Int) (s : State) : Host.Outcome State Fault Refusal :=
  .next (s.present (.setMultiplier v) fun t => (t.storeMult v).respondOk)

/-- `setZeroOffset v` (40_trim.md R81). -/
def execSetZeroOffset (v : Int) (s : State) : Host.Outcome State Fault Refusal :=
  .next (s.present (.setZeroOffset v) fun t => (t.storeZoff v).respondOk)

/-- `setScaleFactor v` (40_trim.md R82). -/
def execSetScaleFactor (v : Int) (s : State) : Host.Outcome State Fault Refusal :=
  .next (s.present (.setScaleFactor v) fun t => (t.storeScale v).respondOk)

end Sys2Proof.Machine
end

