-- ==== Sys2Proof/Machine/Dispatch.lean ====
section
/-! DEFINITION. One arm per command. -/

namespace Sys2Proof.Machine

def exec (i : Instr) (s : State) : Host.Outcome State Fault Refusal :=
  match i with
  | .setMultiplier v => Sys2Proof.Machine.execSetMultiplier v s
  | .setZeroOffset v => Sys2Proof.Machine.execSetZeroOffset v s
  | .setScaleFactor v => Sys2Proof.Machine.execSetScaleFactor v s
  | .writeAngle ch deg => Sys2Proof.Machine.execWriteAngle ch deg s

end Sys2Proof.Machine
end

