-- ==== Sys2Proof/Machine/Cycle.lean ====
section
/-! DEFINITION. What one step does: the reset input first, then the outside's changes to the chip, then the block: a
command in progress goes on, or the oldest command at the port is taken (70_reset_and_hazards.md R143, R147). -/

namespace Sys2Proof.Machine

/-- The block takes one command word: a legal one is executed, any other is answered `ILLEGAL_COMMAND` before it has any
effect (30_encoding.md R66, R67; 60_exceptions.md R122, R126), in the same step (DESIGN CHOICE, log 22). -/
def runWord (w : CommandWord) (s : State) : Host.Outcome State Fault Refusal :=
  match decode w with
  | .ok i => exec i s
  | .error _ => .next s.respondIllegal

/-- The block's own step. BUSY: the sequencer goes on. IDLE: the oldest command at the port is taken; with none there,
nothing happens (log 16). -/
def blockStep (s : State) : Host.Outcome State Fault Refusal :=
  match s.phase, s.port with
  | .busy, _ => .next s.resume
  | .idle, [] => .next s
  | .idle, w :: ws => runWord w { s with port := ws }

/-- One step: reset wins (92_eei_decisions.md D20), then what the outside does to the chip, then the block. -/
def cycle (s : State) : Host.Outcome State Fault Refusal :=
  match s.resetIn, s.chipEvents with
  | true, _ => .next s.applyReset
  | false, e :: es => .next ({ s with chipEvents := es }.applyChipEvent e)
  | false, [] => blockStep s

end Sys2Proof.Machine
end

