-- ==== Sys2Proof/Machine/Step.lean ====
section
/-! DEFINITION. The step of the machine and the placing of a command before it. -/

namespace Sys2Proof.Machine

/-- One step of the machine (Machine/Cycle.lean). -/
def step (s : State) : Host.Outcome State Fault Refusal := cycle s

/-- The table word is the next command the block takes: it stands first at the command port of an IDLE block (log 10). -/
def State.withFetchWord (s : State) (nbits w : Nat) : State := s.loadCommand (tableWord nbits w)

end Sys2Proof.Machine
end

