-- ==== Sys2Proof/Machine/Assembly.lean ====
section
/-! DEFINITION. The assembly form of a command (30_encoding.md R72 to R74): one line, one command word. A line is a list
of characters. Outside the block: no step reads it. -/

namespace Sys2Proof.Machine

/-- The value of a decimal digit. -/
def decDigit (c : Char) : Option Nat :=
  if '0' ≤ c ∧ c ≤ '9' then some (c.toNat - '0'.toNat) else none

/-- The value of a hexadecimal digit, of either case (log 13). -/
def hexDigit (c : Char) : Option Nat :=
  if 'a' ≤ c ∧ c ≤ 'f' then some (c.toNat - 'a'.toNat + 10)
  else if 'A' ≤ c ∧ c ≤ 'F' then some (c.toNat - 'A'.toNat + 10)
  else decDigit c

/-- Digits, most significant first, continuing the number `acc`. -/
def digitsFrom (digit : Char → Option Nat) (base : Nat) : Nat → List Char → Option Nat
  | acc, [] => some acc
  | acc, c :: cs =>
    match digit c with
    | some k => digitsFrom digit base (acc * base + k) cs
    | none => none

/-- One or more digits. -/
def number (digit : Char → Option Nat) (base : Nat) : List Char → Option Nat
  | [] => none
  | c :: cs => digitsFrom digit base 0 (c :: cs)

/-- A value outside 32 bits is refused, never truncated (R73). -/
def checkInt32 (v : Int) : Option Int := if FitsInt32 v then some v else none

/-- `<imm>` (R73): decimal with an optional `-`, or `0x` and the 32-bit pattern itself. -/
def parseImm : List Char → Option Int
  | '0' :: 'x' :: cs =>
    match number hexDigit 16 cs with
    | some n => if n ≤ 0xFFFFFFFF then some (sint32 (BitVec.ofNat 32 n)) else none
    | none => none
  | '-' :: cs =>
    match number decDigit 10 cs with
    | some n => checkInt32 (-(n : Int))
    | none => none
  | cs =>
    match number decDigit 10 cs with
    | some n => checkInt32 n
    | none => none

/-- `<ch>` (R72): a decimal channel index in 1..16; any other is refused (R73). -/
def parseChannel (cs : List Char) : Option Nat :=
  match number decDigit 10 cs with
  | some n => if IsChannel n then some n else none
  | none => none

/-- Spaces around a part of a line count for nothing (log 13). -/
def stripSpaces (cs : List Char) : List Char :=
  ((cs.dropWhile (· == ' ')).reverse.dropWhile (· == ' ')).reverse

/-- The operands of a line: its text after the mnemonic, split at the commas. -/
def operands (cs : List Char) : List (List Char) := (cs.splitOn ',').map stripSpaces

/-- One line (R72): the mnemonic, then its operands. -/
def parseLine (line : List Char) : Option Instr :=
  let mnemonic := (stripSpaces line).takeWhile (· != ' ')
  let ops := operands ((stripSpaces line).dropWhile (· != ' '))
  if mnemonic = "setMultiplier".toList then
    match ops with
    | [a] => (parseImm a).map .setMultiplier
    | _ => none
  else if mnemonic = "setZeroOffset".toList then
    match ops with
    | [a] => (parseImm a).map .setZeroOffset
    | _ => none
  else if mnemonic = "setScaleFactor".toList then
    match ops with
    | [a] => (parseImm a).map .setScaleFactor
    | _ => none
  else if mnemonic = "writeAngle".toList then
    match ops with
    | [c, a] =>
      match parseChannel c, parseImm a with
      | some ch, some deg => some (.writeAngle ch deg)
      | _, _ => none
    | _ => none
  else none

/-- Every line is exactly one command word, or is refused (R73, R74). -/
def assemble (line : List Char) : Option CommandWord := (parseLine line).map encode

end Sys2Proof.Machine
end

