-- ==== Sys2Proof/Safety.lean ====
section
/-! DEFINITION. What a good state of the block is, in the terms the statements use. -/

namespace Sys2Proof.Machine

/-- Both trims are within range (10_state.md R25). -/
abbrev State.TrimsInRange (s : State) : Prop :=
  113 ≤ s.mult.toNat ∧ s.mult.toNat ≤ 226 ∧ 0x66 ≤ s.zoff.toNat ∧ s.zoff.toNat ≤ 0xCC

/-- `STEP` is one of the initialization writes. -/
def SeqStep.isInit : SeqStep → Bool
  | .chLo => false
  | .chHi => false
  | _ => true

/-- A transaction the block may issue: to the one device (30_encoding.md R70), to a register of 20_memory.md R47. -/
abbrev BusWrite.Allowed (w : BusWrite) : Prop := w.dev = devAddr ∧ w.reg ∈ emittedRegs

/-- A response the block may give (30_encoding.md R69): OK and ILLEGAL_COMMAND with `INFO` 0, TRANSPORT_ERROR with the
register of a bus write. -/
abbrev LegalResponse (r : ResponseWord) : Prop :=
  r = responseWord .ok 0 ∨ r = responseWord .illegalCommand 0 ∨ ∃ reg ∈ emittedRegs, r = responseWord .transportError reg

/-- The sequencer of a BUSY block is consistent (10_state.md R29): the latched channel is one of the sixteen and the
latched angle is floored; an initialization write is outstanding exactly while `INIT = 0` (41_init.md R90, R93); in the
channel phase the latched bytes are those of the pulse of the latched angle (42_angle.md R102 to R105). -/
abbrev State.SequencerOk (s : State) : Prop :=
  s.phase = .busy →
    IsChannel s.latch.ch ∧ 1 ≤ s.latch.d ∧ s.latch.d ≤ 2147483647 ∧
    s.seqStep.isInit = !s.init ∧
    (s.seqStep.isInit = false →
      s.latch.lo = lowByte (s.pulse s.latch.d) ∧ s.latch.hb = highByte (s.pulse s.latch.d))

/-- The invariant of the machine. -/
structure State.Inv (s : State) : Prop where
  trims : s.TrimsInRange
  sequencer : s.SequencerOk
  busLog : ∀ r ∈ s.busLog, r.write.Allowed
  responses : ∀ r ∈ s.responses, LegalResponse r
  chip : s.chip.wf

/-! ### What `writeAngle` is to do, read off 42_angle.md R100 and 41_init.md R98 without the sequencer -/

/-- The bus writes a `writeAngle` is to make, in order: the initialization sequence if `INIT = 0`, then the low byte and
the high-bit byte of the pulse under the trims stored when the command starts. -/
def State.commandWrites (s : State) (ch : Nat) (deg : Int) : List (Byte × Byte) :=
  (if s.init then [] else initSequence) ++
    [(pulseL ch, lowByte (s.pulse (floorAngle deg))), (pulseH ch, highByte (s.pulse (floorAngle deg)))]

/-- Those writes as log entries with one and the same result. -/
def records (ws : List (Byte × Byte)) (r : TxResult) : List BusRecord := ws.map fun w => ⟨toDevice w, r⟩

/-- The target registers after those writes, each delivered. -/
def Memory.delivered (m : Memory) (ws : List (Byte × Byte)) : Memory :=
  ws.foldl (fun m w => m.write w.1.toNat w.2) m

/-- A `writeAngle` given now answers OK, having made, after the initialization writes where INIT = 0, exactly the two channel
writes of the pulse `p`. -/
abbrev WritesPulse (t : State) (ch : Nat) (deg p : Int) : Prop :=
  ∃ u, exec (.writeAngle ch deg) t = .next u ∧ u.responses = t.responses ++ [responseWord .ok 0] ∧
    u.busLog = t.busLog ++
      records ((if t.init then [] else initSequence) ++ [(pulseL ch, lowByte p), (pulseH ch, highByte p)]) .ok

/-- A response whose `STATUS` is not OK (30_encoding.md R69). -/
abbrev IsError (r : ResponseWord) : Prop := statusField r ≠ 0

/-- One of the 32 channel registers (20_memory.md R44, R45). -/
abbrev IsChannelReg (reg : Byte) : Prop := ∃ ch, IsChannel ch ∧ (reg = pulseL ch ∨ reg = pulseH ch)

end Sys2Proof.Machine

/-! ### The fields of a command word, read as numbers (30_encoding.md R60, 00_scope.md R12, R13) -/

namespace Sys2Proof.Spec

/-- bits 63:60 -/
def op (w : CommandWord) : Nat := w.toNat / 2 ^ 60
/-- bits 59:56 -/
def ch (w : CommandWord) : Nat := w.toNat / 2 ^ 56 % 2 ^ 4
/-- bits 55:32 -/
def rsv (w : CommandWord) : Nat := w.toNat / 2 ^ 32 % 2 ^ 24
/-- bits 31:0, as a two's-complement number -/
def arg (w : CommandWord) : Int :=
  if w.toNat % 2 ^ 32 < 2 ^ 31 then (w.toNat % 2 ^ 32 : Nat) else (w.toNat % 2 ^ 32 : Nat) - 2 ^ 32

/-- The words that are no command (60_exceptions.md R122). -/
abbrev IsIllegal (w : CommandWord) : Prop :=
  (op w ≠ 1 ∧ op w ≠ 2 ∧ op w ≠ 3 ∧ op w ≠ 4) ∨ rsv w ≠ 0 ∨ (ch w ≠ 0 ∧ (op w = 1 ∨ op w = 2 ∨ op w = 3))

end Sys2Proof.Spec
end

