-- ==== Sys2Proof/Certificates/Slice0/Obligations.lean ====
section
/-! DEFINITION. The statements for the provers. Each docstring names the rule of spec/ it formalises. -/

open Sys2Proof Sys2Proof.Machine

/-! ### Encoding -/

/-- 30_encoding.md R60 to R66: the word of every well-formed command decodes to that command. -/
def Obligations.DecodeOfEncodeIsTheCommand : Prop :=
  ∀ i : Instr, i.WellFormed → decode (encode i) = .ok i

/-- 30_encoding.md R60 to R68: a legal word is the encoding of the one command it decodes to, and that command is
well-formed. -/
def Obligations.EncodeOfDecodeIsTheWord : Prop :=
  ∀ (w : CommandWord) (i : Instr), decode w = .ok i → i.WellFormed ∧ encode i = w

/-- 30_encoding.md R66, the fields read as numbers. -/
def Obligations.DecodeFollowsTheFields : Prop :=
  ∀ w : CommandWord,
    (Spec.rsv w ≠ 0 → ∃ e, decode w = .error e) ∧
    (Spec.rsv w = 0 → Spec.op w = 1 → Spec.ch w = 0 → decode w = .ok (.setMultiplier (Spec.arg w))) ∧
    (Spec.rsv w = 0 → Spec.op w = 2 → Spec.ch w = 0 → decode w = .ok (.setZeroOffset (Spec.arg w))) ∧
    (Spec.rsv w = 0 → Spec.op w = 3 → Spec.ch w = 0 → decode w = .ok (.setScaleFactor (Spec.arg w))) ∧
    (Spec.rsv w = 0 → Spec.op w = 4 → decode w = .ok (.writeAngle (Spec.ch w + 1) (Spec.arg w))) ∧
    ((∃ e, decode w = .error e) ↔ Spec.IsIllegal w)

/-- 30_encoding.md R75: the opcode map, row by row, with its worked encodings. -/
def Obligations.OpcodeMapSelectsTheCommand : Prop :=
  (opcodeMap.map fun r => (r.mnemonic, r.pattern, r.mask)) =
    [("setMultiplier", 0x1000000000000000, 0xFFFFFFFF00000000),
     ("setZeroOffset", 0x2000000000000000, 0xFFFFFFFF00000000),
     ("setScaleFactor", 0x3000000000000000, 0xFFFFFFFF00000000),
     ("writeAngle", 0x4000000000000000, 0xF0FFFFFF00000000)] ∧
  (∀ w : CommandWord,
    (∀ r ∈ opcodeMap, r.Matches w ↔ ∃ i, decode w = .ok i ∧ rowOf i = r) ∧
    (∀ i, decode w = .ok i →
      i = .setMultiplier (Spec.arg w) ∨ i = .setZeroOffset (Spec.arg w) ∨ i = .setScaleFactor (Spec.arg w) ∨
      i = .writeAngle (Spec.ch w + 1) (Spec.arg w)) ∧
    opcodeMap.Pairwise (fun r r' => ¬ (r.Matches w ∧ r'.Matches w)) ∧
    ((∀ r ∈ opcodeMap, ¬ r.Matches w) → ∃ e, decode w = .error e)) ∧
  encode (.writeAngle 1 90) = 0x400000000000005A ∧
  encode (.writeAngle 16 45) = 0x4F0000000000002D ∧
  encode (.setScaleFactor (-1)) = 0x30000000FFFFFFFF

/-- 95_test_vectors.md E1 to E16, one of each command and of each way to be illegal. -/
def Obligations.SampleWordsDecode : Prop :=
  decode 0x100000000000012C = .ok (.setMultiplier 300) ∧
  decode 0x2000000000000080 = .ok (.setZeroOffset 128) ∧
  decode 0x30000000FFFFD8F0 = .ok (.setScaleFactor (-10000)) ∧
  decode 0x4F000000FFFFFFFF = .ok (.writeAngle 16 (-1)) ∧
  decode 0x0000000000000000 = .error .noSuchOperation ∧
  decode 0x1100000000000071 = .error .channelOnSetter ∧
  decode 0x4000000100000000 = .error .reservedBits

/-- 30_encoding.md R72 to R74, 93 U13: what the assembler accepts is exactly one legal command word. -/
def Obligations.AssembledLineIsOneLegalWord : Prop :=
  ∀ (line : List Char) (w : CommandWord), assemble line = some w →
    ∃ i : Instr, i.WellFormed ∧ parseLine line = some i ∧ decode w = .ok i

/-- 30_encoding.md R72, R73 (spaces as log 13 has them): sample lines, a hexadecimal pattern, and refused operands. -/
def Obligations.SampleLinesAssemble : Prop :=
  assemble "writeAngle 16, 45".toList = some 0x4F0000000000002D ∧
  assemble "setScaleFactor -10000".toList = some 0x30000000FFFFD8F0 ∧
  assemble "setZeroOffset 0x80".toList = some 0x2000000000000080 ∧
  parseLine "setScaleFactor 0xFFFFFFFF".toList = some (.setScaleFactor (-1)) ∧
  assemble "writeAngle 17, 45".toList = none ∧
  assemble "writeAngle 0, 45".toList = none ∧
  assemble "setMultiplier 2147483648".toList = none ∧
  assemble "setMultiplier -2147483649".toList = none ∧
  assemble "setMultiplier 0x100000000".toList = none

/-! ### The step and the command port -/

/-- The step of an IDLE block that finds a legal command first at its port is that command's `exec`, the word taken from
the port. -/
def Obligations.StepRunsTheDecodedCommand : Prop :=
  ∀ (s : State) (w : CommandWord) (ws : List CommandWord) (i : Instr),
    s.phase = .idle → s.resetIn = false → s.chipEvents = [] → s.port = w :: ws → decode w = .ok i →
    i.WellFormed ∧ step s = exec i { s with port := ws }

/-- 60_exceptions.md R122: cause, effect and record of ILLEGAL_COMMAND. (That the word is taken and answered in one step, that
STEP and the latches stay, and that the port is a list of any length, are the model's choices, log 22, log 21, log 9.) -/
def Obligations.IllegalWordIsAnsweredWithoutEffect : Prop :=
  ∀ (s : State) (w : CommandWord) (ws : List CommandWord),
    s.phase = .idle → s.resetIn = false → s.chipEvents = [] → s.port = w :: ws →
    (Spec.IsIllegal w → step s = .next { s with port := ws, responses := s.responses ++ [0x0002] }) ∧
    (¬ Spec.IsIllegal w → ∀ t, step s = .next t → ∀ r ∈ t.responses.drop s.responses.length, statusField r ≠ 0x02)

/-- 70_reset_and_hazards.md R147: a BUSY block takes no command, a command presented meanwhile is held behind the others
(that it queues is the model's choice, log 9), and an IDLE block takes the oldest. -/
def Obligations.PortHoldsCommandsWhileBusy : Prop :=
  (∀ s t : State, s.phase = .busy → s.resetIn = false → step s = .next t → t.port = s.port) ∧
  (∀ (s : State) (i : Instr), s.phase = .busy → exec i s = .next { s with port := s.port ++ [encode i] }) ∧
  (∀ (s : State) (w : CommandWord) (ws : List CommandWord),
    s.phase = .idle → s.resetIn = false → s.chipEvents = [] → s.port = w :: ws → ∃ t, step s = .next t ∧ t.port = ws)

/-- 60_exceptions.md R127, R131: nothing stops the block; every command is available in every state. -/
def Obligations.NothingStopsTheBlock : Prop :=
  (∀ s : State, ∃ t, step s = .next t) ∧ ∀ (i : Instr) (s : State), ∃ t, exec i s = .next t

/-- 60_exceptions.md R137: a block whose transport never answers is BUSY for ever, gives no response and takes no command:
however many steps go by, the state is the same. (That no answer is an empty list, that a step in which nothing happens changes
nothing, and that the register of the unanswered write keeps its content, are the model's choices, log 1, log 16, log 19.) -/
def Obligations.UnansweredBlockWaitsForEver : Prop :=
  ∀ s : State, s.phase = .busy → s.answers = [] → s.resetIn = false → s.chipEvents = [] →
    ∀ n, Sys2Proof.core.run n s = .next s

/-- 20_memory.md R57, 30_encoding.md R69, 60_exceptions.md R126: the log of bus writes only grows, a step gives at most one
response, and after a response the block is IDLE. -/
def Obligations.LogsGrowAndOneResponseAtMost : Prop :=
  ∀ s t : State, step s = .next t →
    (∃ new, t.busLog = s.busLog ++ new) ∧
    (t.responses = s.responses ∨ ∃ r, t.responses = s.responses ++ [r] ∧ t.phase = .idle)

/-! ### The setters -/

/-- 40_trim.md R80: encoding, stored value in every corner case, response and frame. (That STEP and the latches stay, and that
the setter is taken and answered in one step, are the model's choices, log 21, log 22.) -/
def Obligations.SetMultiplierStoresTheClampedValue : Prop :=
  (∀ w : CommandWord, w &&& 0xFFFFFFFF00000000 = 0x1000000000000000 → decode w = .ok (.setMultiplier (Spec.arg w))) ∧
  (∀ (v : Int) (s : State), FitsInt32 v → s.phase = .idle →
    ∃ m : Byte, (v ≤ 112 → m = 113) ∧ (227 ≤ v → m = 226) ∧ (113 ≤ v → v ≤ 226 → (m.toNat : Int) = v) ∧
      exec (.setMultiplier v) s = .next { s with mult := m, responses := s.responses ++ [0x0000] }) ∧
  step (State.reset.withFetchWord 64 0x100000000000012C) = .next { State.reset with mult := 226, responses := [0x0000] }

/-- 40_trim.md R81: encoding, stored value in every corner case, response and frame; step 4 of the initialization writes 0x66
whatever ZOFF holds. (That STEP and the latches stay, and that the setter is taken and answered in one step,
are the model's choices, log 21, log 22.) -/
def Obligations.SetZeroOffsetStoresTheClampedValue : Prop :=
  (∀ w : CommandWord, w &&& 0xFFFFFFFF00000000 = 0x2000000000000000 → decode w = .ok (.setZeroOffset (Spec.arg w))) ∧
  (∀ (v : Int) (s : State), FitsInt32 v → s.phase = .idle →
    ∃ z : Byte, (v ≤ 0x65 → z = 0x66) ∧ (0xCD ≤ v → z = 0xCC) ∧ (0x66 ≤ v → v ≤ 0xCC → (z.toNat : Int) = v) ∧
      exec (.setZeroOffset v) s = .next { s with zoff := z, responses := s.responses ++ [0x0000] }) ∧
  (∀ (s : State) (ch : Nat) (deg : Int), s.phase = .idle → s.init = false → s.answers = [.ok, .ok, .ok] →
    ∃ t, exec (.writeAngle ch deg) s = .next t ∧ t.outstanding = some ⟨0x6A, 0xFC, 0x66⟩) ∧
  step (State.reset.withFetchWord 64 0x2000000000000080) = .next { State.reset with zoff := 0x80, responses := [0x0000] }

/-- 40_trim.md R82: encoding, stored value, response and frame; later pulses are exact for every stored value; what a zero and
a negative scale do to them. (That STEP and the latches stay, and that the setter is taken and answered in one step, are the
model's choices, log 21, log 22.) -/
def Obligations.SetScaleFactorStoresVerbatim : Prop :=
  (∀ w : CommandWord, w &&& 0xFFFFFFFF00000000 = 0x3000000000000000 → decode w = .ok (.setScaleFactor (Spec.arg w))) ∧
  (∀ (v : Int) (s : State), FitsInt32 v → s.phase = .idle →
    ∃ k : Word32, k.toInt = v ∧
      exec (.setScaleFactor v) s = .next { s with scale := k, responses := s.responses ++ [0x0000] } ∧
      (∀ d, State.pulse { s with scale := k } d = (d * v * s.mult.toNat).fdiv 10000 + s.zoff.toNat) ∧
      (v = 0 → ∀ d, State.pulse { s with scale := k } d = s.zoff.toNat) ∧
      (v < 0 → s.TrimsInRange → ∀ d, 1 ≤ d → State.pulse { s with scale := k } d < s.zoff.toNat)) ∧
  (∃ s : State, s.TrimsInRange ∧ s.pulse 1 < 0) ∧
  step (State.reset.withFetchWord 64 0x30000000FFFFFFFF) =
    .next { State.reset with scale := 0xFFFFFFFF, responses := [0x0000] }

/-- 40_trim.md R83: a setter neither reads nor writes INIT and issues no bus write; given before the first `writeAngle`, it
leaves the chip untouched and that `writeAngle` still runs the full initialization. -/
def Obligations.SettersNeitherInitializeNorWrite : Prop :=
  ∀ (i : Instr) (s : State),
    (∃ v, i = .setMultiplier v ∨ i = .setZeroOffset v ∨ i = .setScaleFactor v) → s.phase = .idle →
    ∃ t : State, (∀ b, exec i { s with init := b } = .next { t with init := b }) ∧
      t.init = s.init ∧ t.busLog = s.busLog ∧ t.outstanding = none ∧ t.chip = s.chip ∧ t.answers = s.answers ∧
      (s.init = false → ∀ ch deg, ∃ u,
        exec (.writeAngle ch deg) { t with answers := List.replicate 6 .ok } = .next u ∧
        u.busLog = s.busLog ++ records initSequence .ok ∧ u.init = true)

/-- 40_trim.md R85 (which the spec marks derived from R83 and R102): the next `writeAngle` uses the value the setter stored,
and until then the chip's registers stay. -/
def Obligations.SetterTakesEffectForTheNextCommand : Prop :=
  ∀ (s : State) (ch : Nat) (deg v : Int) (rest : List Answer),
    s.phase = .idle → s.answers = List.replicate (if s.init then 2 else 8) .ok ++ rest → FitsInt32 v →
    (∃ t, exec (.setMultiplier v) s = .next t ∧ t.chip = s.chip ∧
      WritesPulse t ch deg (pulseOf (max deg 1) s.scale.toInt (min (max v 113) 226) s.zoff.toNat)) ∧
    (∃ t, exec (.setZeroOffset v) s = .next t ∧ t.chip = s.chip ∧
      WritesPulse t ch deg (pulseOf (max deg 1) s.scale.toInt s.mult.toNat (min (max v 0x66) 0xCC))) ∧
    (∃ t, exec (.setScaleFactor v) s = .next t ∧ t.chip = s.chip ∧
      WritesPulse t ch deg (pulseOf (max deg 1) v s.mult.toNat s.zoff.toNat))

/-- 60_exceptions.md R124: what each legal command may answer, in the step that takes it and in a later one, and from which
cause: OK with every write of the step answered OK, TRANSPORT_ERROR with the register of the last write logged, which answered
ERR. -/
def Obligations.LegalCommandsAnswerOnlyTheirStatuses : Prop :=
  (∀ (v : Int) (s : State), s.phase = .idle →
    ∀ i ∈ [Instr.setMultiplier v, .setZeroOffset v, .setScaleFactor v],
      ∃ t, exec i s = .next t ∧ t.responses = s.responses ++ [0x0000]) ∧
  (∀ (ch : Nat) (deg : Int) (s t : State), s.phase = .idle → exec (.writeAngle ch deg) s = .next t →
    (t.responses = s.responses ∧ t.phase = .busy) ∨
    (t.phase = .idle ∧
      ((t.responses = s.responses ++ [0x0000] ∧ t.busLog = s.busLog ++ records (s.commandWrites ch deg) .ok) ∨
       ∃ before after w, s.commandWrites ch deg = before ++ w :: after ∧
        t.responses = s.responses ++ [responseWord .transportError w.1] ∧
        t.busLog = s.busLog ++ records before .ok ++ [⟨toDevice w, .err⟩]))) ∧
  (∀ s t : State, s.phase = .busy → s.resetIn = false → step s = .next t →
    (t.responses = s.responses ∧ t.phase = .busy) ∨
    (t.phase = .idle ∧ ∃ new, (∀ r ∈ new, r.result = .ok) ∧
      ((t.responses = s.responses ++ [0x0000] ∧ t.busLog = s.busLog ++ new) ∨
       ∃ w : BusWrite, t.responses = s.responses ++ [responseWord .transportError w.reg] ∧
        t.busLog = s.busLog ++ new ++ [⟨w, .err⟩])))

/-! ### The arithmetic and the addresses -/

/-- 40_trim.md R84: the clamp laws, of the values the two trims store. -/
def Obligations.ClampsStayInRangeAndFixIt : Prop :=
  ∀ v : Int,
    (113 ≤ clampMultiplier v ∧ clampMultiplier v ≤ 226 ∧ (113 ≤ v → v ≤ 226 → clampMultiplier v = v) ∧
      clampMultiplier v = min (max v 113) 226) ∧
    (0x66 ≤ clampZeroOffset v ∧ clampZeroOffset v ≤ 0xCC ∧ (0x66 ≤ v → v ≤ 0xCC → clampZeroOffset v = v) ∧
      clampZeroOffset v = min (max v 0x66) 0xCC) ∧
    ∀ s : State, s.phase = .idle →
      (∃ t, exec (.setMultiplier v) s = .next t ∧ (t.mult.toNat : Int) = clampMultiplier v) ∧
      (∃ t, exec (.setZeroOffset v) s = .next t ∧ (t.zoff.toNat : Int) = clampZeroOffset v)

/-- 42_angle.md R103: the quotient is the floor of the exact quotient. -/
def Obligations.DivisionIsTheFloor : Prop :=
  (∀ w q : Int, floorDiv w 10000 = q ↔ q * 10000 ≤ w ∧ w < (q + 1) * 10000) ∧
  (∀ n : Nat, floorDiv n 10000 = (n / 10000 : Nat)) ∧
  floorDiv (-226) 10000 = -1 ∧ floorDiv (-10000) 10000 = -1

/-- 42_angle.md R104: the comparison is signed. -/
def Obligations.HighBitIsASignedComparison : Prop :=
  ∀ p : Int, (p > 0xFF → highByte p = 1) ∧ (p ≤ 255 → highByte p = 0)

/-- 42_angle.md R105: the low byte is the pulse modulo 256, negative or not. -/
def Obligations.LowByteIsThePulseModulo256 : Prop :=
  ∀ p : Int, ((lowByte p).toNat : Int) = p % 256 ∧ (∀ n : Nat, p = n → (lowByte p).toNat = n &&& 0xFF) ∧
    ∀ n : Nat, 8 ≤ n → lowByte p = (BitVec.ofInt n p).setWidth 8

/-- 42_angle.md R111 (which the spec marks derived): "The arithmetic of rule R102 never overflows." -/
def Obligations.PipelineNeverOverflows : Prop :=
  ∀ (d : Int) (scale : Word32) (mult zoff : Nat),
    1 ≤ d → d ≤ 2 ^ 31 - 1 → 113 ≤ mult → mult ≤ 226 → 0x66 ≤ zoff → zoff ≤ 0xCC →
    |d * scale.toInt| ≤ (2 ^ 31 - 1) * 2 ^ 31 ∧ |d * scale.toInt| < 2 ^ 62 ∧
    |wide d scale.toInt mult| < 2 ^ 62 * 226 ∧ |wide d scale.toInt mult| < 2 ^ 70 ∧
    (BitVec.ofInt 71 (wide d scale.toInt mult)).toInt = wide d scale.toInt mult ∧
    (BitVec.ofInt 58 (pulseOf d scale.toInt mult zoff)).toInt = pulseOf d scale.toInt mult zoff

/-- 42_angle.md R113 (which the spec marks derived): the pulses under the reset trims. -/
def Obligations.ResetTrimsGiveTheListedPulses : Prop :=
  (∀ d : Int, 1 ≤ d → State.reset.pulse d = (18080 * d).fdiv 10000 + 102) ∧
  State.reset.pulse 1 = 103 ∧ State.reset.pulse 85 = 255 ∧ State.reset.pulse 86 = 257 ∧ State.reset.pulse 90 = 264 ∧
  State.reset.pulse 226 = 510 ∧ State.reset.pulse 227 = 512 ∧ carried 512 = 256 ∧
  (∀ d : Int, 1 ≤ d → (highByte (State.reset.pulse d) = 0 ↔ d ≤ 85)) ∧
  (∀ d : Int, 1 ≤ d → ((carried (State.reset.pulse d) : Int) = State.reset.pulse d ↔ d < 227))

/-- 20_memory.md R44, R45: the addresses of the sixteen register pairs. -/
def Obligations.ChannelRegistersAreFourApart : Prop :=
  (∀ i, IsChannel i → (pulseL i).toNat = 0x08 + 4 * (i - 1) ∧ (pulseH i).toNat = 0x09 + 4 * (i - 1) ∧
    pulseH i = pulseL i + 1) ∧
  ((List.range 16).map fun k => pulseL (k + 1)) =
    [0x08, 0x0C, 0x10, 0x14, 0x18, 0x1C, 0x20, 0x24, 0x28, 0x2C, 0x30, 0x34, 0x38, 0x3C, 0x40, 0x44]

/-- 20_memory.md R47 (which the spec marks derived; R40, R70 for the device): whatever a step adds to the bus log goes
to a listed register. -/
def Obligations.OnlyListedRegistersAreWritten : Prop :=
  ∀ s t : State, s.Inv → step s = .next t →
    ∃ new, t.busLog = s.busLog ++ new ∧ ∀ r ∈ new, r.write.dev = 0x6A ∧
      (r.write.reg ∈ [0x00, 0xFA, 0xFB, 0xFC, 0xFD, (0xFE : Byte)] ∨
       ∃ k, k < 16 ∧ (r.write.reg.toNat = 0x08 + 4 * k ∨ r.write.reg.toNat = 0x09 + 4 * k))

/-! ### writeAngle -/

/-- 42_angle.md R102 (with R100, R101, R107) on an initialized block whose two writes answer OK: the pulse is the document's
pipeline on the stored trims, its two bytes go to the channel's registers, and that is the whole next state of the block. (What
the chip then holds is `ChipHoldsTheDeliveredBytes`; what STEP and the latches hold after the response is the model's choice,
log 21.) -/
def Obligations.WriteAngleDrivesTheChannel : Prop :=
  ∀ (s : State) (ch : Nat) (deg : Int) (rest : List Answer),
    IsChannel ch → FitsInt32 deg → s.phase = .idle → s.init = true → s.answers = .ok :: .ok :: rest →
    ∀ p : Int, p = (max deg 1 * s.scale.toInt * s.mult.toNat).fdiv 10000 + s.zoff.toNat →
    ∃ m, exec (.writeAngle ch deg) s = .next { s with
      seqStep := .chHi
      latch := ⟨ch, max deg 1, lowByte p, highByte p⟩
      answers := rest
      responses := s.responses ++ [0x0000]
      busLog := s.busLog ++
        [⟨⟨0x6A, BitVec.ofNat 8 (0x08 + 4 * (ch - 1)), lowByte p⟩, .ok⟩,
         ⟨⟨0x6A, BitVec.ofNat 8 (0x09 + 4 * (ch - 1)), highByte p⟩, .ok⟩]
      chip := m }

/-- 41_init.md R91, R92 (and R93): the first `writeAngle` makes the six listed writes, step 4 with the constant 0x66 whatever
ZOFF holds, then its two channel writes, and INIT is 1. (What STEP and the latches hold after the response is
the model's choice, log 21.) -/
def Obligations.FirstWriteAngleInitializesTheChip : Prop :=
  ∀ (s : State) (ch : Nat) (deg : Int) (rest : List Answer),
    IsChannel ch → FitsInt32 deg → s.phase = .idle → s.init = false → s.answers = List.replicate 8 .ok ++ rest →
    ∀ p : Int, p = (max deg 1 * s.scale.toInt * s.mult.toNat).fdiv 10000 + s.zoff.toNat →
    ∃ m, exec (.writeAngle ch deg) s = .next { s with
      init := true
      seqStep := .chHi
      latch := ⟨ch, max deg 1, lowByte p, highByte p⟩
      answers := rest
      responses := s.responses ++ [0x0000]
      busLog := s.busLog ++
        [⟨⟨0x6A, 0xFE, Config.prescaleVal⟩, .ok⟩, ⟨⟨0x6A, 0xFA, 0x00⟩, .ok⟩, ⟨⟨0x6A, 0xFB, 0x00⟩, .ok⟩,
         ⟨⟨0x6A, 0xFC, 0x66⟩, .ok⟩, ⟨⟨0x6A, 0xFD, 0x00⟩, .ok⟩, ⟨⟨0x6A, 0x00, Config.mode1WakeVal⟩, .ok⟩,
         ⟨⟨0x6A, BitVec.ofNat 8 (0x08 + 4 * (ch - 1)), lowByte p⟩, .ok⟩,
         ⟨⟨0x6A, BitVec.ofNat 8 (0x09 + 4 * (ch - 1)), highByte p⟩, .ok⟩]
      chip := m }

/-- 41_init.md R94, 42_angle.md R109, 60_exceptions.md R121, R126: the first write that answers ERR, whichever it is, ends
the command; the writes before it stay, none after it is issued, its register is reported, and INIT is set only if the six
initialization writes were among those before it. The response word is spelled out: STATUS 0x01 in bits 7:0, INFO in bits 15:8
(30_encoding.md R69). What the failing register then holds is open (20_memory.md R55, log 5); that the registers of the chip
are the bytes last delivered, each untouched by writes to another, is the model's choice (log 7), and so are the list of
answers and the running of a command as far as it reaches (log 1, log 2). -/
def Obligations.FirstFailedWriteEndsTheCommand : Prop :=
  ∀ (s : State) (ch : Nat) (deg : Int) (before after : List (Byte × Byte)) (w : Byte × Byte) (rest : List Answer),
    s.phase = .idle → s.commandWrites ch deg = before ++ w :: after →
    s.answers = List.replicate before.length .ok ++ .err :: rest →
    ∃ t, exec (.writeAngle ch deg) s = .next t ∧
      t.phase = .idle ∧ t.answers = rest ∧
      (∃ r : ResponseWord, t.responses = s.responses ++ [r] ∧ r = responseWord .transportError w.1 ∧
        r.extractLsb' 0 8 = 0x01 ∧ r.extractLsb' 8 8 = w.1) ∧
      t.busLog = s.busLog ++ records before .ok ++ [⟨toDevice w, .err⟩] ∧
      (t.init = true ↔ s.init = true ∨ initSequence <+: before) ∧
      t.mult = s.mult ∧ t.zoff = s.zoff ∧ t.scale = s.scale ∧
      t.port = s.port ∧ t.resetIn = s.resetIn ∧ t.chipEvents = s.chipEvents ∧
      ∃ b, t.chip = (s.chip.delivered before).write w.1.toNat b

/-- 10_state.md R30, 20_memory.md R56: where the transport's answers run out, the block stays BUSY with exactly the next
write of the command outstanding, and nothing but the writes before it has been issued. (The list of answers, the running of a
command as far as it reaches, the chip as the bytes last delivered, and the outstanding write not yet at the chip are the model's
choices, log 1, log 2, log 7, log 19.) -/
def Obligations.UnansweredWriteStaysOutstanding : Prop :=
  ∀ (s : State) (ch : Nat) (deg : Int) (before after : List (Byte × Byte)) (w : Byte × Byte),
    s.phase = .idle → s.commandWrites ch deg = before ++ w :: after → s.answers = List.replicate before.length .ok →
    ∃ t, exec (.writeAngle ch deg) s = .next t ∧
      t.phase = .busy ∧ t.answers = [] ∧ t.outstanding = some (toDevice w) ∧ t.responses = s.responses ∧
      t.busLog = s.busLog ++ records before .ok ∧
      (t.init = true ↔ s.init = true ∨ initSequence <+: before) ∧
      t.mult = s.mult ∧ t.zoff = s.zoff ∧ t.scale = s.scale ∧
      t.port = s.port ∧ t.resetIn = s.resetIn ∧ t.chipEvents = s.chipEvents ∧
      t.chip = s.chip.delivered before ∧ t.draws = s.draws

/-- 10_state.md R30, 70_reset_and_hazards.md R153: when the answers arrive makes no difference. A command that waits and
is resumed ends exactly as one whose answers were all there; answers it does not use are left. (Rests on log 1, log 2.) -/
def Obligations.LateAnswersMakeNoDifference : Prop :=
  ∀ (s t : State) (ch : Nat) (deg : Int) (early late : List Answer),
    s.phase = .idle → s.resetIn = false → s.chipEvents = [] →
    exec (.writeAngle ch deg) { s with answers := early } = .next t →
    (t.phase = .busy → t.answers = [] ∧
      step { t with answers := late } = exec (.writeAngle ch deg) { s with answers := early ++ late }) ∧
    (t.phase = .idle →
      exec (.writeAngle ch deg) { s with answers := early ++ late } = .next { t with answers := t.answers ++ late })

/-- 42_angle.md R101, R114: every angle below 1 gives the output of angle 1, and none above is changed. -/
def Obligations.AnglesBelowOneActAsOne : Prop :=
  ∀ (s : State) (ch : Nat) (deg : Int), s.phase = .idle →
    (deg ≤ 1 → exec (.writeAngle ch deg) s = exec (.writeAngle ch 1) s) ∧
    (1 ≤ deg → s.answers = [] → ∃ t, exec (.writeAngle ch deg) s = .next t ∧ t.latch.d = deg ∧
      (s.init = true → t.latch.lo = lowByte (s.pulse deg) ∧ t.latch.hb = highByte (s.pulse deg)))

/-- 41_init.md R95: after a failed sequence the next `writeAngle`, on any channel, runs the whole sequence from step 1. -/
def Obligations.RetryRunsTheWholeSequence : Prop :=
  ∀ (s : State) (ch ch' : Nat) (deg deg' : Int) (before after : List (Byte × Byte)) (w : Byte × Byte)
    (rest : List Answer),
    s.phase = .idle → s.init = false → initSequence = before ++ w :: after →
    s.answers = List.replicate before.length .ok ++ .err :: (List.replicate 8 .ok ++ rest) →
    ∃ t u, exec (.writeAngle ch deg) s = .next t ∧ t.init = false ∧ t.phase = .idle ∧
      t.busLog = s.busLog ++ records before .ok ++ [⟨toDevice w, .err⟩] ∧
      exec (.writeAngle ch' deg') t = .next u ∧ u.init = true ∧
      u.busLog = t.busLog ++ records (initSequence ++
        [(pulseL ch', lowByte (s.pulse (max deg' 1))), (pulseH ch', highByte (s.pulse (max deg' 1)))]) .ok ∧
      u.responses = s.responses ++ [responseWord .transportError w.1, responseWord .ok 0]

/-- 41_init.md R96: two successful `writeAngle` commands in a row with the same operands make the six
writes once and the same two channel writes, those of the pulse, twice. -/
def Obligations.SecondWriteAngleSendsNoInitWrites : Prop :=
  ∀ (s : State) (ch : Nat) (deg : Int) (rest : List Answer),
    s.phase = .idle → s.init = false → s.answers = List.replicate 10 .ok ++ rest →
    ∀ ws, ws = [(pulseL ch, lowByte (s.pulse (max deg 1))), (pulseH ch, highByte (s.pulse (max deg 1)))] →
    ∃ t u, exec (.writeAngle ch deg) s = .next t ∧ exec (.writeAngle ch deg) t = .next u ∧
      t.busLog = s.busLog ++ records initSequence .ok ++ records ws .ok ∧ u.busLog = t.busLog ++ records ws .ok ∧
      u.responses = s.responses ++ [responseWord .ok 0, responseWord .ok 0] ∧ u.answers = rest

/-- 41_init.md R96: once INIT = 1, a step that is no reset keeps it and writes channel registers only. -/
def Obligations.NoInitWriteOnceInitialized : Prop :=
  ∀ s t : State, s.Inv → s.init = true → s.resetIn = false → step s = .next t →
    t.init = true ∧ ∃ new, t.busLog = s.busLog ++ new ∧ ∀ r ∈ new, IsChannelReg r.write.reg

/-- 42_angle.md R106, 60_exceptions.md R123: what the two channel writes of a successful `writeAngle` carry together, whatever
the pulse, and that a truncation is answered OK like any other. -/
def Obligations.ChannelRegistersCarryThePulse : Prop :=
  ∀ (s : State) (ch : Nat) (deg : Int) (rest : List Answer),
    s.phase = .idle → s.answers = List.replicate (s.commandWrites ch deg).length .ok ++ rest →
    ∃ t lo hb before, exec (.writeAngle ch deg) s = .next t ∧ t.responses = s.responses ++ [0x0000] ∧
      t.busLog = s.busLog ++ before ++ [⟨⟨0x6A, pulseL ch, lo⟩, .ok⟩, ⟨⟨0x6A, pulseH ch, hb⟩, .ok⟩] ∧
      ∀ p E : Int, p = s.pulse (max deg 1) → E = 256 * hb.toNat + lo.toNat →
        (0 ≤ p → p ≤ 511 → E = p) ∧ (512 ≤ p → E = 256 + p % 256) ∧ (p < 0 → E = p % 256)

/-- 70_reset_and_hazards.md R149, R150 (the latter marked derived by the spec): after a `writeAngle` whose writes all answered OK
every register written holds the byte last delivered to it, and no other register changed. (That the chip is modelled as
those bytes alone is the model's choice, log 7.) -/
def Obligations.ChipHoldsTheDeliveredBytes : Prop :=
  ∀ (s : State) (ch : Nat) (deg : Int) (rest : List Answer),
    IsChannel ch → s.phase = .idle → s.answers = List.replicate (s.commandWrites ch deg).length .ok ++ rest →
    ∃ t, exec (.writeAngle ch deg) s = .next t ∧
      t.chipReg (pulseL ch) = lowByte (s.pulse (max deg 1)) ∧
      t.chipReg (pulseH ch) = highByte (s.pulse (max deg 1)) ∧
      (s.init = false → ∀ w ∈ initSequence, t.chipReg w.1 = w.2) ∧
      ∀ a, (∀ w ∈ s.commandWrites ch deg, w.1.toNat ≠ a) → t.chip.read a = s.chip.read a

/-- 42_angle.md R108: how many bus writes a `writeAngle` makes. -/
def Obligations.WriteAngleMakesEightOrTwoWrites : Prop :=
  ∀ (s t : State) (ch : Nat) (deg : Int), s.phase = .idle → exec (.writeAngle ch deg) s = .next t →
    ∃ new, t.busLog = s.busLog ++ new ∧
      (t.responses = s.responses ++ [responseWord .ok 0] → ∃ lo hb,
        new = records ((if s.init then [] else initSequence) ++ [(pulseL ch, lo), (pulseH ch, hb)]) .ok ∧
        (s.init = true → new.length = 2) ∧ (s.init = false → new.length = 8)) ∧
      (∀ reg, t.responses = s.responses ++ [responseWord .transportError reg] → 1 ≤ new.length ∧ new.length ≤ 8)

/-- 70_reset_and_hazards.md R151 (which the spec marks derived; the unknown value is log 5's, the chip as the bytes last
delivered log 7's): a torn channel value, and its repair by a later success on the channel. -/
def Obligations.TornChannelValueUntilTheNextSuccess : Prop :=
  ∀ (s : State) (ch : Nat) (deg deg' : Int) (rest : List Answer),
    IsChannel ch → s.phase = .idle → s.init = true → s.answers = .ok :: .err :: .ok :: .ok :: rest →
    ∃ t u, exec (.writeAngle ch deg) s = .next t ∧
      t.responses = s.responses ++ [responseWord .transportError (pulseH ch)] ∧
      t.chipReg (pulseL ch) = lowByte (s.pulse (max deg 1)) ∧
      t.chipReg (pulseH ch) = Config.freeByte s.draws ∧
      exec (.writeAngle ch deg') t = .next u ∧
      u.chipReg (pulseL ch) = lowByte (s.pulse (max deg' 1)) ∧
      u.chipReg (pulseH ch) = highByte (s.pulse (max deg' 1))

/-- 42_angle.md R112, 20_memory.md R54: the frame of `writeAngle`, whatever the transport answers: of the block's elements
only INIT may change, and only upward, by the six initialization writes answering OK; the writes logged as finished are the first
ones of the command, in order; a target register that none of them addresses reads as before. (That the register of a write
still outstanding is one of these is the model's choice, log 19; that no register acts on another, log 7.) -/
def Obligations.WriteAngleFrame : Prop :=
  ∀ (s t : State) (ch : Nat) (deg : Int), s.phase = .idle → exec (.writeAngle ch deg) s = .next t →
    t.mult = s.mult ∧ t.zoff = s.zoff ∧ t.scale = s.scale ∧ (s.init = true → t.init = true) ∧
    t.port = s.port ∧ t.resetIn = s.resetIn ∧ t.chipEvents = s.chipEvents ∧
    ∃ new, t.busLog = s.busLog ++ new ∧
      new.map (·.write) <+: (s.commandWrites ch deg).map toDevice ∧
      (t.init ≠ s.init → records initSequence .ok <+: new) ∧
      ∀ a, (∀ r ∈ new, r.write.reg.toNat ≠ a) → t.chip.read a = s.chip.read a

/-- 42_angle.md R110: the writes and the answer of a `writeAngle` depend on its operands, MULT, ZOFF, SCALE, INIT and the
transport's answers alone; two in a row with the same operands, on an initialized block with every answer OK, issue the same
two writes. -/
def Obligations.WriteAngleDependsOnNothingElse : Prop :=
  (∀ (s s' t t' : State) (ch : Nat) (deg : Int),
    s.phase = .idle → s'.phase = .idle →
    s.mult = s'.mult → s.zoff = s'.zoff → s.scale = s'.scale → s.init = s'.init → s.answers = s'.answers →
    exec (.writeAngle ch deg) s = .next t → exec (.writeAngle ch deg) s' = .next t' →
    ∃ new resp, t.busLog = s.busLog ++ new ∧ t'.busLog = s'.busLog ++ new ∧
      t.responses = s.responses ++ resp ∧ t'.responses = s'.responses ++ resp ∧ t.init = t'.init ∧ t.answers = t'.answers) ∧
  ∀ (s : State) (ch : Nat) (deg : Int) (rest : List Answer),
    s.phase = .idle → s.init = true → s.answers = .ok :: .ok :: .ok :: .ok :: rest →
    ∀ ws, ws = [(pulseL ch, lowByte (s.pulse (max deg 1))), (pulseH ch, highByte (s.pulse (max deg 1)))] →
    ∃ t u, exec (.writeAngle ch deg) s = .next t ∧ exec (.writeAngle ch deg) t = .next u ∧
      t.busLog = s.busLog ++ records ws .ok ∧ u.busLog = t.busLog ++ records ws .ok

/-- 20_memory.md R56: within a step every write but the last answered OK, and one that answered ERR ended its command. -/
def Obligations.NextWriteOnlyAfterSuccess : Prop :=
  ∀ s t : State, s.resetIn = false → step s = .next t →
    ∃ new, t.busLog = s.busLog ++ new ∧ (∀ r ∈ new.dropLast, r.result = .ok) ∧
      ∀ r ∈ new, r.result ≠ .ok → t.phase = .idle ∧ t.responses = s.responses ++ [responseWord .transportError r.write.reg]

/-! ### INIT, the chip, reset -/

/-- 10_state.md R27, 41_init.md R90: INIT is 0 at reset, is set only by the sixth initialization write answering OK, is
cleared only by reset, and decides the first write of a `writeAngle`. -/
def Obligations.InitIsSetBySixWritesAndClearedByReset : Prop :=
  State.reset.init = false ∧
  (∀ s t : State, step s = .next t →
    (s.init = true → s.resetIn = false → t.init = true) ∧
    (s.resetIn = true → t.init = false) ∧
    (s.init = false → t.init = true →
      ∃ before after, t.busLog = s.busLog ++ before ++ ⟨⟨0x6A, 0x00, Config.mode1WakeVal⟩, .ok⟩ :: after)) ∧
  (∀ (s t : State) (ch : Nat) (deg : Int), s.phase = .idle → s.answers = [] → exec (.writeAngle ch deg) s = .next t →
    t.outstanding = some (if s.init then ⟨0x6A, pulseL ch, lowByte (s.pulse (max deg 1))⟩
      else ⟨0x6A, 0xFE, Config.prescaleVal⟩))

/-- 41_init.md R93: the sixth write's OK sets INIT and the rest of the command proceeds; INIT then stays 1 until reset. -/
def Obligations.SixthWriteSetsInit : Prop :=
  (∀ s : State, s.phase = .busy → s.seqStep = .init6 → s.answers = [.ok] → s.resetIn = false → s.chipEvents = [] →
    ∃ t, step s = .next t ∧ t.init = true ∧ t.phase = .busy ∧
      t.outstanding = some ⟨0x6A, pulseL s.latch.ch, lowByte (s.pulse s.latch.d)⟩) ∧
  ∀ s t : State, s.init = true → s.resetIn = false → step s = .next t → t.init = true

/-- 60_exceptions.md R128 (which the spec marks derived): after an error response the trims and the scale are as
before, and so is INIT, unless a channel write failed after the sequence completed. -/
def Obligations.ErrorsArePrecise : Prop :=
  ∀ (s t : State) (r : ResponseWord), s.Inv → s.resetIn = false → step s = .next t →
    t.responses = s.responses ++ [r] → IsError r →
    t.mult = s.mult ∧ t.zoff = s.zoff ∧ t.scale = s.scale ∧
    (t.init = s.init ∨ (s.init = false ∧ t.init = true ∧ IsChannelReg (infoField r)))

/-- 20_memory.md R41: what the target's registers hold never enters the block's state, its answers or its bus writes. -/
def Obligations.TargetContentNeverReachesTheBlock : Prop :=
  ∀ (s : State) (m : Memory), ∃ t m', step s = .next t ∧ step { s with chip := m } = .next { t with chip := m' }

/-- 20_memory.md R55: a failed write leaves its register's content open (a free value, log 5); that no other register changes is
the model's choice (log 7), not the rule's; the block's own state goes on without it. -/
def Obligations.FailedWriteLeavesItsRegisterOpen : Prop :=
  ∀ (s : State) (w : BusWrite) (rest : List Answer),
    s.outstanding = some w → s.answers = .err :: rest → s.resetIn = false → s.chipEvents = [] →
    ∃ t, step s = .next t ∧ t.chipReg w.reg = Config.freeByte s.draws ∧ t.draws = s.draws + 1 ∧
      (∀ a, a ≠ w.reg.toNat → t.chip.read a = s.chip.read a) ∧
      t.phase = .idle ∧ t.answers = rest ∧ t.busLog = s.busLog ++ [⟨w, .err⟩] ∧
      t.responses = s.responses ++ [responseWord .transportError w.reg] ∧
      t.mult = s.mult ∧ t.zoff = s.zoff ∧ t.scale = s.scale ∧ t.init = s.init

/-- 70_reset_and_hazards.md R148 (which the spec marks derived): the block does not notice what the
outside does to the chip. (That such an event is a step of its own and changes no other register is the model's choice, log 12,
log 7; the free bytes after a loss are log 6's.) -/
def Obligations.ChipEventsGoUnnoticed : Prop :=
  ∀ (s : State) (e : ChipEvent) (es : List ChipEvent), s.resetIn = false → s.chipEvents = e :: es →
    ∃ m, step s = .next { s with chip := m, chipEvents := es } ∧
      (∀ reg val, e = .written reg val →
        m.read reg.toNat = val ∧ ∀ a, a ≠ reg.toNat → m.read a = s.chip.read a) ∧
      (e = .lost → ∀ a, m.read a = Config.chipByte (s.chip.life + 1) a)

/-- 10_state.md R33 (and 70_reset_and_hazards.md R141): every element the spec gives a reset value. -/
def Obligations.ResetStateHoldsTheResetValues : Prop :=
  State.reset.init = false ∧ State.reset.mult.toNat = 226 ∧ State.reset.zoff.toNat = 0x66 ∧
  State.reset.scale.toInt = 80 ∧ State.reset.phase = .idle

/-- 70_reset_and_hazards.md R142, R143, R144: reset abandons the command, issues and answers nothing, keeps the chip but
for the register of a write that was outstanding, and the next `writeAngle` starts the sequence again. (That held commands
stay at the port, that the abandoned write lands in the reset step if it lands at all, and that it changes no other register are
the model's choices, log 3, log 20, log 7.) -/
def Obligations.ResetAbandonsTheCommand : Prop :=
  ∀ s : State, s.resetIn = true → ∃ t, step s = .next t ∧
    t.init = false ∧ t.mult = 226 ∧ t.zoff = 0x66 ∧ t.scale = 80 ∧ t.phase = .idle ∧ t.outstanding = none ∧
    t.responses = s.responses ∧ t.port = s.port ∧ t.resetIn = false ∧
    (s.outstanding = none → t.busLog = s.busLog ∧ t.chip = s.chip) ∧
    (∀ w, s.outstanding = some w → t.busLog = s.busLog ++ [⟨w, .abandoned⟩] ∧
      t.chipReg w.reg = Config.freeByte s.draws ∧ ∀ a, a ≠ w.reg.toNat → t.chip.read a = s.chip.read a) ∧
    ∀ ch deg, ∃ u, exec (.writeAngle ch deg) { t with answers := [] } = .next u ∧
      u.outstanding = some ⟨0x6A, 0xFE, Config.prescaleVal⟩

/-- 10_state.md R29: an IDLE block never reads STEP and the latches: its step gives the same state, but for STEP and the
latches, whatever they hold, and the same outstanding write; where that step leaves the block BUSY, nothing stale is left: STEP,
the latched channel and the latched angle agree, and in the channel phase every latch does. -/
def Obligations.IdleBlockIgnoresItsLatches : Prop :=
  ∀ (s : State) (k : SeqStep) (l : Latches), s.phase = .idle →
    ∃ t k' l', step s = .next t ∧
      step { s with seqStep := k, latch := l } = .next { t with seqStep := k', latch := l' } ∧
      State.outstanding { t with seqStep := k', latch := l' } = t.outstanding ∧
      (t.phase = .busy → k' = t.seqStep ∧ l'.ch = t.latch.ch ∧ l'.d = t.latch.d ∧
        (t.seqStep.isInit = false → l' = t.latch))

/-! ### Invariants -/

/-- 10_state.md R25: both trims are in range at reset, and every step from a state where they are keeps them there. -/
def Obligations.TrimsAreAlwaysInRange : Prop :=
  State.reset.TrimsInRange ∧ ∀ s t : State, s.TrimsInRange → step s = .next t → t.TrimsInRange

/-- The invariant of the machine holds at reset. -/
def Obligations.InvHoldsAtReset : Prop := State.reset.Inv

/-- Every step keeps the invariant: trims in range (10_state.md R25), the sequencer consistent (10_state.md R29, 41_init.md
R90, R93), only listed registers of the one device written (20_memory.md R47, 30_encoding.md R70), only legal responses
given (30_encoding.md R69), the register space in canonical form. -/
def Obligations.EveryStepKeepsInv : Prop :=
  ∀ s t : State, s.Inv → step s = .next t → t.Inv
end

