-- ==== Sys2Proof/Laws/Numeric.lean ====
section
/-! SUPPORT. The arithmetic of the block. -/

namespace Sys2Proof.Machine

/-- The divisor is positive, so the floor is the Euclidean quotient, which `omega` knows. -/
theorem floorDiv_divisor (a : Int) : floorDiv a divisor = a / 10000 := by
  simp [floorDiv, divisor, Int.fdiv_eq_ediv_of_nonneg]

theorem pulseOf_eq (d scale mult zoff : Int) : pulseOf d scale mult zoff = d * scale * mult / 10000 + zoff := by
  rw [pulseOf, floorDiv_divisor, wide]

theorem lowByte_toInt_emod (p : Int) : ((lowByte p).toNat : Int) = p % (2 ^ 8 : Nat) := by
  simp only [lowByte, BitVec.toNat_ofInt]
  omega

theorem clampMultiplier_bounds (v : Int) : 113 ≤ clampMultiplier v ∧ clampMultiplier v ≤ 226 := by
  simp only [clampMultiplier, clamp, multMin, multMax]
  omega

theorem clampZeroOffset_bounds (v : Int) : 102 ≤ clampZeroOffset v ∧ clampZeroOffset v ≤ 204 := by
  simp only [clampZeroOffset, clamp, zoffMin, zoffMax]
  omega

/-- A value of 0..255 survives its eight bits. -/
theorem toNat_ofInt8 {v : Int} (h : 0 ≤ v) (h' : v < 256) : ((BitVec.ofInt 8 v).toNat : Int) = v := by
  simp only [BitVec.toNat_ofInt]
  omega

/-- A value of −2^31..2^31−1 survives its thirty-two bits. -/
theorem sint32_ofInt {v : Int} (h : FitsInt32 v) : sint32 (BitVec.ofInt 32 v) = v := by
  simp only [sint32, BitVec.toInt_ofInt, Int.bmod_def]
  omega

theorem floorAngle_pos (deg : Int) : 1 ≤ floorAngle deg := by
  simp only [floorAngle, degMin]
  omega

theorem pulseL_toNat {ch : Nat} (h : IsChannel ch) : (pulseL ch).toNat = 0x08 + 4 * (ch - 1) := by
  simp only [pulseL, chBase0, chStride, BitVec.toNat_ofNat]
  omega

theorem pulseH_toNat {ch : Nat} (h : IsChannel ch) : (pulseH ch).toNat = 0x09 + 4 * (ch - 1) := by
  simp only [pulseH, BitVec.toNat_add, pulseL_toNat h]
  simp
  omega

/-- Sixteen cases settle a fact about a channel. -/
theorem channel_cases {P : Nat → Prop} (h : ∀ k < 16, P (k + 1)) {ch : Nat} (hc : IsChannel ch) : P ch := by
  obtain ⟨k, rfl⟩ : ∃ k, ch = k + 1 := ⟨ch - 1, by omega⟩
  exact h k (by omega)

theorem pulseL_emitted {ch : Nat} (h : IsChannel ch) : pulseL ch ∈ emittedRegs :=
  channel_cases (P := fun ch => pulseL ch ∈ emittedRegs) (by decide) h

theorem pulseH_emitted {ch : Nat} (h : IsChannel ch) : pulseH ch ∈ emittedRegs :=
  channel_cases (P := fun ch => pulseH ch ∈ emittedRegs) (by decide) h

/-! ### The response word -/

theorem statusField_responseWord (st : Status) (info : Byte) : statusField (responseWord st info) = st.code := by
  unfold statusField responseWord
  generalize st.code = c
  ext i hi
  rw [BitVec.getElem_extractLsb', BitVec.getLsbD_append]
  simp [hi]

theorem infoField_responseWord (st : Status) (info : Byte) : infoField (responseWord st info) = info := by
  unfold infoField responseWord
  generalize st.code = c
  ext i hi
  rw [BitVec.getElem_extractLsb', BitVec.getLsbD_append]
  simp [hi]

end Sys2Proof.Machine
end

