-- ==== Sys2Proof/Laws/Encoding.lean ====
section
/-! SUPPORT. The fields of a command word as numbers, and the fields of a word the encoder puts together. -/

namespace Sys2Proof

variable (w : CommandWord)

theorem opField_toNat : (opField w).toNat = Spec.op w := by
  have := w.isLt
  simp only [opField, Spec.op, BitVec.extractLsb'_toNat, Nat.shiftRight_eq_div_pow]
  omega

theorem chField_toNat : (chField w).toNat = Spec.ch w := by
  simp only [chField, Spec.ch, BitVec.extractLsb'_toNat, Nat.shiftRight_eq_div_pow]

theorem rsvField_toNat : (rsvField w).toNat = Spec.rsv w := by
  simp only [rsvField, Spec.rsv, BitVec.extractLsb'_toNat, Nat.shiftRight_eq_div_pow]

theorem argField_toNat : (argField w).toNat = w.toNat % 2 ^ 32 := by
  simp [argField, BitVec.extractLsb'_toNat]

theorem sint32_argField : sint32 (argField w) = Spec.arg w := by
  simp only [sint32, BitVec.toInt, argField_toNat, Spec.arg]
  split <;> split <;> omega

/-- A field holds `k` exactly when its number is `k`. -/
theorem opField_eq (k : BitVec 4) : opField w = k ↔ Spec.op w = k.toNat := by
  rw [← BitVec.toNat_inj, opField_toNat]

theorem chField_eq (k : BitVec 4) : chField w = k ↔ Spec.ch w = k.toNat := by
  rw [← BitVec.toNat_inj, chField_toNat]

theorem rsvField_eq (k : BitVec 24) : rsvField w = k ↔ Spec.rsv w = k.toNat := by
  rw [← BitVec.toNat_inj, rsvField_toNat]

/-! ### The encoder's words -/

variable (op ch : BitVec 4) (v : Int)

theorem commandWord_toNat :
    (commandWord op ch v).toNat = op.toNat * 2 ^ 60 + ch.toNat * 2 ^ 56 + (BitVec.ofInt 32 v).toNat := by
  have := op.isLt
  have := ch.isLt
  have := (BitVec.ofInt 32 v).isLt
  rw [commandWord, BitVec.toNat_ofNat, Nat.mod_eq_of_lt]
  omega

theorem opField_commandWord : opField (commandWord op ch v) = op := by
  have := op.isLt
  have := ch.isLt
  have := (BitVec.ofInt 32 v).isLt
  rw [opField_eq, Spec.op, commandWord_toNat]
  omega

theorem chField_commandWord : chField (commandWord op ch v) = ch := by
  have := op.isLt
  have := ch.isLt
  have := (BitVec.ofInt 32 v).isLt
  rw [chField_eq, Spec.ch, commandWord_toNat]
  omega

theorem rsvField_commandWord : rsvField (commandWord op ch v) = 0 := by
  have := (BitVec.ofInt 32 v).isLt
  rw [rsvField_eq, Spec.rsv, commandWord_toNat]
  simp
  omega

theorem argField_commandWord : argField (commandWord op ch v) = BitVec.ofInt 32 v := by
  have := (BitVec.ofInt 32 v).isLt
  rw [← BitVec.toNat_inj, argField_toNat, commandWord_toNat]
  omega

/-- A word is its three fields where the reserved one is zero. -/
theorem toNat_eq_fields (h : Spec.rsv w = 0) :
    w.toNat = Spec.op w * 2 ^ 60 + Spec.ch w * 2 ^ 56 + w.toNat % 2 ^ 32 := by
  have := w.isLt
  simp only [Spec.op, Spec.ch, Spec.rsv] at *
  omega

/-! ### The rows of the opcode map -/

/-- Two words with the same four fields are the same word. -/
theorem word_ext {w w' : CommandWord} (ho : opField w = opField w') (hc : chField w = chField w')
    (hr : rsvField w = rsvField w') (ha : argField w = argField w') : w = w' := by
  have := w.isLt
  have := w'.isLt
  rw [← BitVec.toNat_inj] at *
  simp only [opField_toNat, chField_toNat, rsvField_toNat, argField_toNat, Spec.op, Spec.ch, Spec.rsv] at *
  omega

/-- A row matches a word field by field. -/
theorem matches_fields (r : OpcodeRow) :
    r.Matches w ↔
      opField w &&& opField r.mask = opField r.pattern ∧ chField w &&& chField r.mask = chField r.pattern ∧
      rsvField w &&& rsvField r.mask = rsvField r.pattern ∧ argField w &&& argField r.mask = argField r.pattern := by
  constructor
  · intro h
    simp only [OpcodeRow.Matches] at h
    rw [← h]
    refine ⟨?_, ?_, ?_, ?_⟩ <;> ext <;> simp [opField, chField, rsvField, argField]
  · rintro ⟨h1, h2, h3, h4⟩
    refine word_ext (h1 ▸ ?_) (h2 ▸ ?_) (h3 ▸ ?_) (h4 ▸ ?_) <;> ext <;> simp [opField, chField, rsvField, argField]

theorem field_and_ones (x : BitVec n) (k : BitVec n) : x &&& BitVec.allOnes n = k ↔ x = k := by
  rw [BitVec.and_allOnes]

theorem setter_row_matches (k : BitVec 4) (r : OpcodeRow) (hm : r.mask = 0xFFFFFFFF00000000)
    (hp : opField r.pattern = k ∧ chField r.pattern = 0 ∧ rsvField r.pattern = 0 ∧ argField r.pattern = 0) :
    r.Matches w ↔ opField w = k ∧ chField w = 0 ∧ rsvField w = 0 := by
  obtain ⟨h1, h2, h3, h4⟩ := hp
  have e1 : opField 0xFFFFFFFF00000000 = BitVec.allOnes 4 := by decide
  have e2 : chField 0xFFFFFFFF00000000 = BitVec.allOnes 4 := by decide
  have e3 : rsvField 0xFFFFFFFF00000000 = BitVec.allOnes 24 := by decide
  have e4 : argField 0xFFFFFFFF00000000 = 0 := by decide
  rw [matches_fields, hm, h1, h2, h3, h4, e1, e2, e3, e4]
  simp only [field_and_ones]
  simp

theorem writeAngle_row_matches : rowWriteAngle.Matches w ↔ opField w = 4 ∧ rsvField w = 0 := by
  have e1 : opField rowWriteAngle.mask = BitVec.allOnes 4 := by decide
  have e2 : chField rowWriteAngle.mask = 0 := by decide
  have e3 : rsvField rowWriteAngle.mask = BitVec.allOnes 24 := by decide
  have e4 : argField rowWriteAngle.mask = 0 := by decide
  have p1 : opField rowWriteAngle.pattern = 4 := by decide
  have p2 : chField rowWriteAngle.pattern = 0 := by decide
  have p3 : rsvField rowWriteAngle.pattern = 0 := by decide
  have p4 : argField rowWriteAngle.pattern = 0 := by decide
  rw [matches_fields, e1, e2, e3, e4, p1, p2, p3, p4]
  simp only [field_and_ones]
  simp

end Sys2Proof
end

