-- ==== Sys2Proof/Laws/Memory.lean ====
section
/-! SUPPORT. The target register space: reading after writing, and the canonical form. -/

namespace Sys2Proof.Machine

theorem cellAt_putCell_same (cs : List Host.Cell) (a : Nat) (b : Byte) : cellAt (putCell cs a b) a = some b := by
  induction cs with
  | nil => simp [putCell, cellAt]
  | cons c cs ih =>
    obtain ⟨k, c⟩ := c
    simp only [putCell]
    split
    · simp [cellAt]
    · split
      · simp [cellAt]
      · rename_i hne
        simp [cellAt, hne, ih]

theorem cellAt_putCell_ne (cs : List Host.Cell) {a a' : Nat} (b : Byte) (h : a' ≠ a) :
    cellAt (putCell cs a b) a' = cellAt cs a' := by
  induction cs with
  | nil => simp [putCell, cellAt, h]
  | cons c cs ih =>
    obtain ⟨k, c⟩ := c
    simp only [putCell]
    split
    · simp [cellAt, h]
    · split
      · rename_i heq
        subst heq
        simp [cellAt, h]
      · simp [cellAt, ih]

theorem cellAt_dropCell (cs : List Host.Cell) (a a' : Nat) :
    cellAt (dropCell cs a) a' = if a' = a then none else cellAt cs a' := by
  induction cs with
  | nil => simp [dropCell, cellAt]
  | cons c cs ih =>
    obtain ⟨k, c⟩ := c
    simp only [dropCell] at ih
    by_cases hk : k = a
    · subst hk
      simp only [dropCell, List.filter_cons, bne_self_eq_false, Bool.false_eq_true, if_false, ih, cellAt]
      split <;> rfl
    · simp only [dropCell, List.filter_cons, bne_iff_ne, ne_eq, hk, not_false_eq_true, if_true, cellAt, ih]
      by_cases h : a' = k
      · simp [h, hk]
      · simp [h]

@[simp] theorem Memory.write_life (m : Memory) (a : Nat) (b : Byte) : (m.write a b).life = m.life := rfl

@[simp] theorem Memory.write_unlisted (m : Memory) (a a' : Nat) (b : Byte) :
    (m.write a b).unlisted a' = m.unlisted a' := rfl

/-- What is listed after a write: nothing where the byte is the free one, else the byte. -/
theorem Memory.cellAt_write_same (m : Memory) (a : Nat) (b : Byte) :
    cellAt (m.write a b).cells a = if b = m.unlisted a then none else some b := by
  unfold Memory.write
  split <;> simp [cellAt_dropCell, cellAt_putCell_same]

theorem Memory.cellAt_write_ne (m : Memory) {a a' : Nat} (b : Byte) (h : a' ≠ a) :
    cellAt (m.write a b).cells a' = cellAt m.cells a' := by
  unfold Memory.write
  dsimp only
  split
  · simp [cellAt_dropCell, h]
  · exact cellAt_putCell_ne _ _ h

theorem Memory.read_write_same (m : Memory) (a : Nat) (b : Byte) : (m.write a b).read a = b := by
  rw [Memory.read, Memory.cellAt_write_same, Memory.write_unlisted]
  split
  · rename_i h
    exact h.symm
  · rfl

theorem Memory.read_write_ne (m : Memory) {a a' : Nat} (b : Byte) (h : a' ≠ a) : (m.write a b).read a' = m.read a' := by
  rw [Memory.read, Memory.cellAt_write_ne _ _ h, Memory.write_unlisted, Memory.read]

/-- After the contents are lost every register holds the free byte of the new life. -/
theorem Memory.read_lose (m : Memory) (a : Nat) : m.lose.read a = Config.chipByte (m.life + 1) a := rfl

/-- Every cell after a put is the one put or was there before. -/
theorem mem_putCell {cs : List Host.Cell} {a : Nat} {b : Byte} {c : Host.Cell} (h : c ∈ putCell cs a b) :
    c = (a, b) ∨ c ∈ cs := by
  induction cs with
  | nil => simp_all [putCell]
  | cons d cs ih =>
    simp only [putCell] at h
    split at h
    · exact List.mem_cons.1 h
    · split at h
      · exact (List.mem_cons.1 h).imp_right (List.mem_cons_of_mem _)
      · rcases List.mem_cons.1 h with rfl | h
        · exact .inr (List.mem_cons_self ..)
        · exact (ih h).imp_right (List.mem_cons_of_mem _)

/-- Putting a cell in its place keeps the addresses rising. -/
theorem putCell_rising {cs : List Host.Cell} (a : Nat) (b : Byte) (hs : (cs.map Prod.fst).Pairwise (· < ·)) :
    ((putCell cs a b).map Prod.fst).Pairwise (· < ·) := by
  induction cs with
  | nil => simp [putCell]
  | cons d cs ih =>
    obtain ⟨k, e⟩ := d
    simp only [List.map_cons, List.pairwise_cons] at hs
    simp only [putCell]
    split
    · rename_i hlt
      simp only [List.map_cons, List.pairwise_cons, List.mem_cons]
      refine ⟨?_, hs⟩
      rintro x (rfl | hx)
      · exact hlt
      · exact hlt.trans (hs.1 x hx)
    · split
      · rename_i heq
        subst heq
        simpa using hs
      · simp only [List.map_cons, List.pairwise_cons]
        refine ⟨?_, ih hs.2⟩
        intro x hx
        obtain ⟨c, hc, rfl⟩ := List.mem_map.1 hx
        rcases mem_putCell hc with rfl | h
        · show k < a
          omega
        · exact hs.1 _ (List.mem_map_of_mem h)

theorem Memory.wf_nil (life : Nat) : Memory.wf ⟨life, []⟩ := by simp [Memory.wf]

theorem Memory.wf_reset : Memory.reset.wf := Memory.wf_nil 0

theorem Memory.wf_lose (m : Memory) : m.lose.wf := Memory.wf_nil _

/-- A write to an address of the space keeps the canonical form. -/
theorem Memory.wf_write {m : Memory} {a : Nat} (b : Byte) (hm : m.wf) (ha : a < 256) : (m.write a b).wf := by
  obtain ⟨hs, hb⟩ := hm
  by_cases h : b = m.unlisted a
  · simp only [Memory.wf, Memory.write, h, if_true]
    exact ⟨hs.sublist (List.filter_sublist.map _), fun c hc => hb c (List.mem_filter.1 hc).1⟩
  · simp only [Memory.wf, Memory.write, h, if_false]
    refine ⟨putCell_rising a b hs, fun c hc => ?_⟩
    rcases mem_putCell hc with rfl | hc
    · exact ⟨ha, h⟩
    · exact hb c hc

/-- The byte listed is a byte that differs from the free one, and the register holds it. -/
theorem Memory.cellAt_eq_some {m : Memory} (hm : m.wf) (a : Nat) (b : Byte) :
    cellAt m.cells a = some b ↔ m.read a = b ∧ b ≠ m.unlisted a := by
  have listed : ∀ (cs : List Host.Cell) (c : Byte), cellAt cs a = some c → (a, c) ∈ cs := by
    intro cs c
    induction cs with
    | nil => simp [cellAt]
    | cons d cs ih =>
      obtain ⟨k, e⟩ := d
      simp only [cellAt]
      split
      · rename_i h
        subst h
        rintro ⟨⟩
        exact List.mem_cons_self ..
      · exact fun h => List.mem_cons_of_mem _ (ih h)
  unfold Memory.read
  cases h : cellAt m.cells a with
  | none =>
    simp only [Option.getD_none, reduceCtorEq, false_iff, not_and, not_not]
    exact fun h => h.symm
  | some c =>
    have := (hm.2 _ (listed _ _ h)).2
    constructor
    · rintro ⟨⟩
      exact ⟨rfl, this⟩
    · rintro ⟨h, _⟩
      exact congrArg some h

/-- Rising lists that list the same are the same. -/
theorem cells_ext {cs ds : List Host.Cell} (hc : (cs.map Prod.fst).Pairwise (· < ·))
    (hd : (ds.map Prod.fst).Pairwise (· < ·)) (h : ∀ a, cellAt cs a = cellAt ds a) : cs = ds := by
  have above : ∀ {es : List Host.Cell} {a : Nat}, (∀ k ∈ es.map Prod.fst, a < k) → cellAt es a = none := by
    intro es a
    induction es with
    | nil => simp [cellAt]
    | cons e es ih =>
      obtain ⟨k, e⟩ := e
      intro h
      have hk : a < k := h k (by simp)
      simp only [cellAt, hk.ne, if_false]
      exact ih fun x hx => h x (List.mem_cons_of_mem _ hx)
  induction cs generalizing ds with
  | nil =>
    cases ds with
    | nil => rfl
    | cons d ds => simpa [cellAt] using h d.1
  | cons c cs ih =>
    cases ds with
    | nil => simpa [cellAt] using h c.1
    | cons d ds =>
      obtain ⟨k, x⟩ := c
      obtain ⟨l, y⟩ := d
      simp only [List.map_cons, List.pairwise_cons] at hc hd
      have hkl : k = l := by
        rcases lt_trichotomy k l with hlt | heq | hgt
        · have := h k
          rw [above (es := (l, y) :: ds) (a := k)] at this
          · simp [cellAt] at this
          · intro z hz
            rcases List.mem_cons.1 hz with rfl | hz
            · exact hlt
            · exact hlt.trans (hd.1 z hz)
        · exact heq
        · have := h l
          rw [above (es := (k, x) :: cs) (a := l)] at this
          · simp [cellAt] at this
          · intro z hz
            rcases List.mem_cons.1 hz with rfl | hz
            · exact hgt
            · exact hgt.trans (hc.1 z hz)
      subst hkl
      have hxy : x = y := by simpa [cellAt] using h k
      subst hxy
      congr 1
      refine ih hc.2 hd.2 fun a => ?_
      by_cases ha : a = k
      · subst ha
        rw [above hc.1, above hd.1]
      · simpa [cellAt, ha] using h a

/-- The form is canonical: in one life of the chip, registers that hold the same are the same data. -/
theorem Memory.eq_of_read_eq {m n : Memory} (hm : m.wf) (hn : n.wf) (hl : m.life = n.life)
    (h : ∀ a, m.read a = n.read a) : m = n := by
  have hc : m.cells = n.cells := by
    refine cells_ext hm.1 hn.1 fun a => Option.ext fun b => ?_
    rw [Memory.cellAt_eq_some hm, Memory.cellAt_eq_some hn, h, Memory.unlisted, Memory.unlisted, hl]
  cases m
  cases n
  simp only at hc hl
  rw [hc, hl]

@[simp] theorem Memory.delivered_nil (m : Memory) : m.delivered [] = m := rfl

@[simp] theorem Memory.delivered_cons (m : Memory) (w : Byte × Byte) (ws : List (Byte × Byte)) :
    m.delivered (w :: ws) = Memory.delivered (m.write w.1.toNat w.2) ws := rfl

/-- Delivering writes leaves every register they do not address. -/
theorem Memory.read_delivered_of_not_addressed (ws : List (Byte × Byte)) (m : Memory) (a : Nat)
    (h : ∀ w ∈ ws, w.1.toNat ≠ a) : (m.delivered ws).read a = m.read a := by
  induction ws generalizing m with
  | nil => rfl
  | cons w ws ih =>
    rw [Memory.delivered_cons, ih _ fun v hv => h v (List.mem_cons_of_mem _ hv)]
    exact Memory.read_write_ne m w.2 (h w (List.mem_cons_self ..)).symm

end Sys2Proof.Machine
end

