-- ==== Sys2Proof/Laws/State.lean ====
section
/-! SUPPORT. One lemma per field and named update of the state, each true by definition. -/

namespace Sys2Proof.Machine

variable (s : State)

@[simp] theorem State.respond_mult (st : Status) (info : Byte) : (s.respond st info).mult = s.mult := rfl
@[simp] theorem State.respond_zoff (st : Status) (info : Byte) : (s.respond st info).zoff = s.zoff := rfl
@[simp] theorem State.respond_scale (st : Status) (info : Byte) : (s.respond st info).scale = s.scale := rfl
@[simp] theorem State.respond_init (st : Status) (info : Byte) : (s.respond st info).init = s.init := rfl
@[simp] theorem State.respond_phase (st : Status) (info : Byte) : (s.respond st info).phase = .idle := rfl
@[simp] theorem State.respond_seqStep (st : Status) (info : Byte) : (s.respond st info).seqStep = s.seqStep := rfl
@[simp] theorem State.respond_latch (st : Status) (info : Byte) : (s.respond st info).latch = s.latch := rfl
@[simp] theorem State.respond_port (st : Status) (info : Byte) : (s.respond st info).port = s.port := rfl
@[simp] theorem State.respond_answers (st : Status) (info : Byte) : (s.respond st info).answers = s.answers := rfl
@[simp] theorem State.respond_resetIn (st : Status) (info : Byte) : (s.respond st info).resetIn = s.resetIn := rfl
@[simp] theorem State.respond_chipEvents (st : Status) (info : Byte) : (s.respond st info).chipEvents = s.chipEvents := rfl
@[simp] theorem State.respond_responses (st : Status) (info : Byte) : (s.respond st info).responses = s.responses ++ [responseWord st info] := rfl
@[simp] theorem State.respond_busLog (st : Status) (info : Byte) : (s.respond st info).busLog = s.busLog := rfl
@[simp] theorem State.respond_chip (st : Status) (info : Byte) : (s.respond st info).chip = s.chip := rfl
@[simp] theorem State.respond_draws (st : Status) (info : Byte) : (s.respond st info).draws = s.draws := rfl

@[simp] theorem State.logWrite_mult (r : TxResult) : (s.logWrite r).mult = s.mult := rfl
@[simp] theorem State.logWrite_zoff (r : TxResult) : (s.logWrite r).zoff = s.zoff := rfl
@[simp] theorem State.logWrite_scale (r : TxResult) : (s.logWrite r).scale = s.scale := rfl
@[simp] theorem State.logWrite_init (r : TxResult) : (s.logWrite r).init = s.init := rfl
@[simp] theorem State.logWrite_phase (r : TxResult) : (s.logWrite r).phase = s.phase := rfl
@[simp] theorem State.logWrite_seqStep (r : TxResult) : (s.logWrite r).seqStep = s.seqStep := rfl
@[simp] theorem State.logWrite_latch (r : TxResult) : (s.logWrite r).latch = s.latch := rfl
@[simp] theorem State.logWrite_port (r : TxResult) : (s.logWrite r).port = s.port := rfl
@[simp] theorem State.logWrite_answers (r : TxResult) : (s.logWrite r).answers = s.answers := rfl
@[simp] theorem State.logWrite_resetIn (r : TxResult) : (s.logWrite r).resetIn = s.resetIn := rfl
@[simp] theorem State.logWrite_chipEvents (r : TxResult) : (s.logWrite r).chipEvents = s.chipEvents := rfl
@[simp] theorem State.logWrite_responses (r : TxResult) : (s.logWrite r).responses = s.responses := rfl
@[simp] theorem State.logWrite_busLog (r : TxResult) : (s.logWrite r).busLog = s.busLog ++ [⟨s.currentWrite, r⟩] := rfl
@[simp] theorem State.logWrite_chip (r : TxResult) : (s.logWrite r).chip = s.chip := rfl
@[simp] theorem State.logWrite_draws (r : TxResult) : (s.logWrite r).draws = s.draws := rfl

@[simp] theorem State.deliver_mult : s.deliver.mult = s.mult := rfl
@[simp] theorem State.deliver_zoff : s.deliver.zoff = s.zoff := rfl
@[simp] theorem State.deliver_scale : s.deliver.scale = s.scale := rfl
@[simp] theorem State.deliver_init : s.deliver.init = s.init := rfl
@[simp] theorem State.deliver_phase : s.deliver.phase = s.phase := rfl
@[simp] theorem State.deliver_seqStep : s.deliver.seqStep = s.seqStep := rfl
@[simp] theorem State.deliver_latch : s.deliver.latch = s.latch := rfl
@[simp] theorem State.deliver_port : s.deliver.port = s.port := rfl
@[simp] theorem State.deliver_answers : s.deliver.answers = s.answers := rfl
@[simp] theorem State.deliver_resetIn : s.deliver.resetIn = s.resetIn := rfl
@[simp] theorem State.deliver_chipEvents : s.deliver.chipEvents = s.chipEvents := rfl
@[simp] theorem State.deliver_responses : s.deliver.responses = s.responses := rfl
@[simp] theorem State.deliver_busLog : s.deliver.busLog = s.busLog := rfl
@[simp] theorem State.deliver_chip : s.deliver.chip = s.chip.write s.currentWrite.reg.toNat s.currentWrite.val := rfl
@[simp] theorem State.deliver_draws : s.deliver.draws = s.draws := rfl

@[simp] theorem State.leaveOpen_mult : s.leaveOpen.mult = s.mult := rfl
@[simp] theorem State.leaveOpen_zoff : s.leaveOpen.zoff = s.zoff := rfl
@[simp] theorem State.leaveOpen_scale : s.leaveOpen.scale = s.scale := rfl
@[simp] theorem State.leaveOpen_init : s.leaveOpen.init = s.init := rfl
@[simp] theorem State.leaveOpen_phase : s.leaveOpen.phase = s.phase := rfl
@[simp] theorem State.leaveOpen_seqStep : s.leaveOpen.seqStep = s.seqStep := rfl
@[simp] theorem State.leaveOpen_latch : s.leaveOpen.latch = s.latch := rfl
@[simp] theorem State.leaveOpen_port : s.leaveOpen.port = s.port := rfl
@[simp] theorem State.leaveOpen_answers : s.leaveOpen.answers = s.answers := rfl
@[simp] theorem State.leaveOpen_resetIn : s.leaveOpen.resetIn = s.resetIn := rfl
@[simp] theorem State.leaveOpen_chipEvents : s.leaveOpen.chipEvents = s.chipEvents := rfl
@[simp] theorem State.leaveOpen_responses : s.leaveOpen.responses = s.responses := rfl
@[simp] theorem State.leaveOpen_busLog : s.leaveOpen.busLog = s.busLog := rfl
@[simp] theorem State.leaveOpen_chip : s.leaveOpen.chip = s.chip.write s.currentWrite.reg.toNat (Config.freeByte s.draws) := rfl
@[simp] theorem State.leaveOpen_draws : s.leaveOpen.draws = s.draws + 1 := rfl

@[simp] theorem State.goTo_mult (p : SeqStep) : (s.goTo p).mult = s.mult := rfl
@[simp] theorem State.goTo_zoff (p : SeqStep) : (s.goTo p).zoff = s.zoff := rfl
@[simp] theorem State.goTo_scale (p : SeqStep) : (s.goTo p).scale = s.scale := rfl
@[simp] theorem State.goTo_init (p : SeqStep) : (s.goTo p).init = s.init := rfl
@[simp] theorem State.goTo_phase (p : SeqStep) : (s.goTo p).phase = s.phase := rfl
@[simp] theorem State.goTo_seqStep (p : SeqStep) : (s.goTo p).seqStep = p := rfl
@[simp] theorem State.goTo_latch (p : SeqStep) : (s.goTo p).latch = s.latch := rfl
@[simp] theorem State.goTo_port (p : SeqStep) : (s.goTo p).port = s.port := rfl
@[simp] theorem State.goTo_answers (p : SeqStep) : (s.goTo p).answers = s.answers := rfl
@[simp] theorem State.goTo_resetIn (p : SeqStep) : (s.goTo p).resetIn = s.resetIn := rfl
@[simp] theorem State.goTo_chipEvents (p : SeqStep) : (s.goTo p).chipEvents = s.chipEvents := rfl
@[simp] theorem State.goTo_responses (p : SeqStep) : (s.goTo p).responses = s.responses := rfl
@[simp] theorem State.goTo_busLog (p : SeqStep) : (s.goTo p).busLog = s.busLog := rfl
@[simp] theorem State.goTo_chip (p : SeqStep) : (s.goTo p).chip = s.chip := rfl
@[simp] theorem State.goTo_draws (p : SeqStep) : (s.goTo p).draws = s.draws := rfl

@[simp] theorem State.enterChannel_mult : s.enterChannel.mult = s.mult := rfl
@[simp] theorem State.enterChannel_zoff : s.enterChannel.zoff = s.zoff := rfl
@[simp] theorem State.enterChannel_scale : s.enterChannel.scale = s.scale := rfl
@[simp] theorem State.enterChannel_init : s.enterChannel.init = s.init := rfl
@[simp] theorem State.enterChannel_phase : s.enterChannel.phase = s.phase := rfl
@[simp] theorem State.enterChannel_seqStep : s.enterChannel.seqStep = .chLo := rfl
@[simp] theorem State.enterChannel_latch : s.enterChannel.latch = { s.latch with lo := lowByte (s.pulse s.latch.d), hb := highByte (s.pulse s.latch.d) } := rfl
@[simp] theorem State.enterChannel_port : s.enterChannel.port = s.port := rfl
@[simp] theorem State.enterChannel_answers : s.enterChannel.answers = s.answers := rfl
@[simp] theorem State.enterChannel_resetIn : s.enterChannel.resetIn = s.resetIn := rfl
@[simp] theorem State.enterChannel_chipEvents : s.enterChannel.chipEvents = s.chipEvents := rfl
@[simp] theorem State.enterChannel_responses : s.enterChannel.responses = s.responses := rfl
@[simp] theorem State.enterChannel_busLog : s.enterChannel.busLog = s.busLog := rfl
@[simp] theorem State.enterChannel_chip : s.enterChannel.chip = s.chip := rfl
@[simp] theorem State.enterChannel_draws : s.enterChannel.draws = s.draws := rfl

@[simp] theorem State.storeMult_mult (v : Int) : (s.storeMult v).mult = BitVec.ofInt 8 (clampMultiplier v) := rfl
@[simp] theorem State.storeMult_zoff (v : Int) : (s.storeMult v).zoff = s.zoff := rfl
@[simp] theorem State.storeMult_scale (v : Int) : (s.storeMult v).scale = s.scale := rfl
@[simp] theorem State.storeMult_init (v : Int) : (s.storeMult v).init = s.init := rfl
@[simp] theorem State.storeMult_phase (v : Int) : (s.storeMult v).phase = s.phase := rfl
@[simp] theorem State.storeMult_seqStep (v : Int) : (s.storeMult v).seqStep = s.seqStep := rfl
@[simp] theorem State.storeMult_latch (v : Int) : (s.storeMult v).latch = s.latch := rfl
@[simp] theorem State.storeMult_port (v : Int) : (s.storeMult v).port = s.port := rfl
@[simp] theorem State.storeMult_answers (v : Int) : (s.storeMult v).answers = s.answers := rfl
@[simp] theorem State.storeMult_resetIn (v : Int) : (s.storeMult v).resetIn = s.resetIn := rfl
@[simp] theorem State.storeMult_chipEvents (v : Int) : (s.storeMult v).chipEvents = s.chipEvents := rfl
@[simp] theorem State.storeMult_responses (v : Int) : (s.storeMult v).responses = s.responses := rfl
@[simp] theorem State.storeMult_busLog (v : Int) : (s.storeMult v).busLog = s.busLog := rfl
@[simp] theorem State.storeMult_chip (v : Int) : (s.storeMult v).chip = s.chip := rfl
@[simp] theorem State.storeMult_draws (v : Int) : (s.storeMult v).draws = s.draws := rfl

@[simp] theorem State.storeZoff_mult (v : Int) : (s.storeZoff v).mult = s.mult := rfl
@[simp] theorem State.storeZoff_zoff (v : Int) : (s.storeZoff v).zoff = BitVec.ofInt 8 (clampZeroOffset v) := rfl
@[simp] theorem State.storeZoff_scale (v : Int) : (s.storeZoff v).scale = s.scale := rfl
@[simp] theorem State.storeZoff_init (v : Int) : (s.storeZoff v).init = s.init := rfl
@[simp] theorem State.storeZoff_phase (v : Int) : (s.storeZoff v).phase = s.phase := rfl
@[simp] theorem State.storeZoff_seqStep (v : Int) : (s.storeZoff v).seqStep = s.seqStep := rfl
@[simp] theorem State.storeZoff_latch (v : Int) : (s.storeZoff v).latch = s.latch := rfl
@[simp] theorem State.storeZoff_port (v : Int) : (s.storeZoff v).port = s.port := rfl
@[simp] theorem State.storeZoff_answers (v : Int) : (s.storeZoff v).answers = s.answers := rfl
@[simp] theorem State.storeZoff_resetIn (v : Int) : (s.storeZoff v).resetIn = s.resetIn := rfl
@[simp] theorem State.storeZoff_chipEvents (v : Int) : (s.storeZoff v).chipEvents = s.chipEvents := rfl
@[simp] theorem State.storeZoff_responses (v : Int) : (s.storeZoff v).responses = s.responses := rfl
@[simp] theorem State.storeZoff_busLog (v : Int) : (s.storeZoff v).busLog = s.busLog := rfl
@[simp] theorem State.storeZoff_chip (v : Int) : (s.storeZoff v).chip = s.chip := rfl
@[simp] theorem State.storeZoff_draws (v : Int) : (s.storeZoff v).draws = s.draws := rfl

@[simp] theorem State.storeScale_mult (v : Int) : (s.storeScale v).mult = s.mult := rfl
@[simp] theorem State.storeScale_zoff (v : Int) : (s.storeScale v).zoff = s.zoff := rfl
@[simp] theorem State.storeScale_scale (v : Int) : (s.storeScale v).scale = BitVec.ofInt 32 v := rfl
@[simp] theorem State.storeScale_init (v : Int) : (s.storeScale v).init = s.init := rfl
@[simp] theorem State.storeScale_phase (v : Int) : (s.storeScale v).phase = s.phase := rfl
@[simp] theorem State.storeScale_seqStep (v : Int) : (s.storeScale v).seqStep = s.seqStep := rfl
@[simp] theorem State.storeScale_latch (v : Int) : (s.storeScale v).latch = s.latch := rfl
@[simp] theorem State.storeScale_port (v : Int) : (s.storeScale v).port = s.port := rfl
@[simp] theorem State.storeScale_answers (v : Int) : (s.storeScale v).answers = s.answers := rfl
@[simp] theorem State.storeScale_resetIn (v : Int) : (s.storeScale v).resetIn = s.resetIn := rfl
@[simp] theorem State.storeScale_chipEvents (v : Int) : (s.storeScale v).chipEvents = s.chipEvents := rfl
@[simp] theorem State.storeScale_responses (v : Int) : (s.storeScale v).responses = s.responses := rfl
@[simp] theorem State.storeScale_busLog (v : Int) : (s.storeScale v).busLog = s.busLog := rfl
@[simp] theorem State.storeScale_chip (v : Int) : (s.storeScale v).chip = s.chip := rfl
@[simp] theorem State.storeScale_draws (v : Int) : (s.storeScale v).draws = s.draws := rfl

@[simp] theorem State.hold_mult (w : CommandWord) : (s.hold w).mult = s.mult := rfl
@[simp] theorem State.hold_zoff (w : CommandWord) : (s.hold w).zoff = s.zoff := rfl
@[simp] theorem State.hold_scale (w : CommandWord) : (s.hold w).scale = s.scale := rfl
@[simp] theorem State.hold_init (w : CommandWord) : (s.hold w).init = s.init := rfl
@[simp] theorem State.hold_phase (w : CommandWord) : (s.hold w).phase = s.phase := rfl
@[simp] theorem State.hold_seqStep (w : CommandWord) : (s.hold w).seqStep = s.seqStep := rfl
@[simp] theorem State.hold_latch (w : CommandWord) : (s.hold w).latch = s.latch := rfl
@[simp] theorem State.hold_port (w : CommandWord) : (s.hold w).port = s.port ++ [w] := rfl
@[simp] theorem State.hold_answers (w : CommandWord) : (s.hold w).answers = s.answers := rfl
@[simp] theorem State.hold_resetIn (w : CommandWord) : (s.hold w).resetIn = s.resetIn := rfl
@[simp] theorem State.hold_chipEvents (w : CommandWord) : (s.hold w).chipEvents = s.chipEvents := rfl
@[simp] theorem State.hold_responses (w : CommandWord) : (s.hold w).responses = s.responses := rfl
@[simp] theorem State.hold_busLog (w : CommandWord) : (s.hold w).busLog = s.busLog := rfl
@[simp] theorem State.hold_chip (w : CommandWord) : (s.hold w).chip = s.chip := rfl
@[simp] theorem State.hold_draws (w : CommandWord) : (s.hold w).draws = s.draws := rfl

@[simp] theorem State.resetBlock_mult : s.resetBlock.mult = multReset := rfl
@[simp] theorem State.resetBlock_zoff : s.resetBlock.zoff = zoffReset := rfl
@[simp] theorem State.resetBlock_scale : s.resetBlock.scale = scaleReset := rfl
@[simp] theorem State.resetBlock_init : s.resetBlock.init = false := rfl
@[simp] theorem State.resetBlock_phase : s.resetBlock.phase = .idle := rfl
@[simp] theorem State.resetBlock_seqStep : s.resetBlock.seqStep = .init1 := rfl
@[simp] theorem State.resetBlock_latch : s.resetBlock.latch = Latches.reset := rfl
@[simp] theorem State.resetBlock_port : s.resetBlock.port = s.port := rfl
@[simp] theorem State.resetBlock_answers : s.resetBlock.answers = s.answers := rfl
@[simp] theorem State.resetBlock_resetIn : s.resetBlock.resetIn = false := rfl
@[simp] theorem State.resetBlock_chipEvents : s.resetBlock.chipEvents = s.chipEvents := rfl
@[simp] theorem State.resetBlock_responses : s.resetBlock.responses = s.responses := rfl
@[simp] theorem State.resetBlock_busLog : s.resetBlock.busLog = s.busLog := rfl
@[simp] theorem State.resetBlock_chip : s.resetBlock.chip = s.chip := rfl
@[simp] theorem State.resetBlock_draws : s.resetBlock.draws = s.draws := rfl

end Sys2Proof.Machine
end

