-- ==== Sys2Proof/Laws/Ops.lean ====
section
/-! SUPPORT. What one answered bus write does, and the induction over the answers of a command. -/

namespace Sys2Proof.Machine

variable (s : State)

/-! ### The outstanding write -/

theorem State.outstanding_idle {s : State} (h : s.phase = .idle) : s.outstanding = none := by
  simp [State.outstanding, h]

theorem State.outstanding_busy {s : State} (h : s.phase = .busy) : s.outstanding = some s.currentWrite := by
  simp [State.outstanding, h]

@[simp] theorem State.currentWrite_dev : s.currentWrite.dev = devAddr := rfl

/-- The write at a place depends on `STEP` and the latches alone. -/
theorem State.currentWrite_congr {s t : State} (h : t.seqStep = s.seqStep) (h' : t.latch = s.latch) :
    t.currentWrite = s.currentWrite := by
  simp [State.currentWrite, h, h']

@[simp] theorem State.logWrite_currentWrite (r : TxResult) : (s.logWrite r).currentWrite = s.currentWrite := rfl

/-! ### One answered write

`advance` is the only place where an OK makes a difference to the sequencer; the rest of the state is in these lemmas. -/

@[simp] theorem State.advance_mult : s.advance.mult = s.mult := by simp only [State.advance]; split <;> rfl
@[simp] theorem State.advance_zoff : s.advance.zoff = s.zoff := by simp only [State.advance]; split <;> rfl
@[simp] theorem State.advance_scale : s.advance.scale = s.scale := by simp only [State.advance]; split <;> rfl
@[simp] theorem State.advance_port : s.advance.port = s.port := by simp only [State.advance]; split <;> rfl
@[simp] theorem State.advance_answers : s.advance.answers = s.answers := by simp only [State.advance]; split <;> rfl
@[simp] theorem State.advance_resetIn : s.advance.resetIn = s.resetIn := by simp only [State.advance]; split <;> rfl
@[simp] theorem State.advance_chipEvents : s.advance.chipEvents = s.chipEvents := by
  simp only [State.advance]; split <;> rfl
@[simp] theorem State.advance_busLog : s.advance.busLog = s.busLog := by simp only [State.advance]; split <;> rfl
@[simp] theorem State.advance_chip : s.advance.chip = s.chip := by simp only [State.advance]; split <;> rfl
@[simp] theorem State.advance_draws : s.advance.draws = s.draws := by simp only [State.advance]; split <;> rfl

/-- `INIT` after an OK: set by the sixth initialization write, else as it was (41_init.md R93). -/
theorem State.advance_init : s.advance.init = (s.init || decide (s.seqStep = .init6)) := by
  simp only [State.advance]; split <;> simp_all [State.respondOk]

/-- `PHASE` after an OK: only the last write of the command ends it. -/
theorem State.advance_phase : s.advance.phase = if s.seqStep = .chHi then .idle else s.phase := by
  simp only [State.advance]; split <;> simp_all [State.respondOk]

/-- Responses after an OK: only the last write of the command gives one. -/
theorem State.advance_responses :
    s.advance.responses = s.responses ++ (if s.seqStep = .chHi then [responseWord .ok 0] else []) := by
  simp only [State.advance]; split <;> simp_all [State.respondOk]

/-- Every answered write leaves the trims, the scale, the ports and the inputs, and joins the log. -/
theorem State.transact_spec (a : Answer) :
    (s.transact a).mult = s.mult ∧ (s.transact a).zoff = s.zoff ∧ (s.transact a).scale = s.scale ∧
    (s.transact a).port = s.port ∧ (s.transact a).resetIn = s.resetIn ∧ (s.transact a).chipEvents = s.chipEvents ∧
    (s.transact a).answers = s.answers ∧
    (∃ r, (s.transact a).busLog = s.busLog ++ [⟨s.currentWrite, r⟩] ∧ (r = .ok ↔ a = .ok) ∧ (r = .err ↔ a = .err)) ∧
    ∃ b, (s.transact a).chip = s.chip.write s.currentWrite.reg.toNat b := by
  cases a with
  | ok => exact ⟨by simp [State.transact], by simp [State.transact], by simp [State.transact], by simp [State.transact],
      by simp [State.transact], by simp [State.transact], by simp [State.transact],
      ⟨.ok, by simp [State.transact]⟩, ⟨_, by simp [State.transact]; rfl⟩⟩
  | err => exact ⟨rfl, rfl, rfl, rfl, rfl, rfl, rfl, ⟨.err, by simp [State.transact]⟩, ⟨_, rfl⟩⟩

/-- An ERR ends the command with the failing register, and INIT stays (41_init.md R94, 42_angle.md R109). -/
theorem State.transact_err :
    (s.transact .err).phase = .idle ∧ (s.transact .err).init = s.init ∧
    (s.transact .err).responses = s.responses ++ [responseWord .transportError s.currentWrite.reg] :=
  ⟨rfl, rfl, rfl⟩

/-! ### The answers of a command -/

@[simp] theorem State.serve_nil : s.serve [] = { s with answers := [] } := rfl

theorem State.serve_cons_idle {s : State} (h : s.phase = .idle) (a : Answer) (as : List Answer) :
    s.serve (a :: as) = { s with answers := a :: as } := by
  simp [State.serve, h]

theorem State.serve_cons_busy {s : State} (h : s.phase = .busy) (a : Answer) (as : List Answer) :
    s.serve (a :: as) = (s.transact a).serve as := by
  simp [State.serve, h]

theorem State.serve_idle {s : State} (h : s.phase = .idle) (as : List Answer) :
    s.serve as = { s with answers := as } := by
  cases as with
  | nil => rfl
  | cons a as => exact State.serve_cons_idle h a as

/-- The induction of the sequencer, once: what every answered write of a BUSY block keeps, and what does not speak of the
unused answers, holds after the answers have been served. -/
theorem State.serve_induct {P : State → Prop} (unused : ∀ s as, P s → P { s with answers := as })
    (answered : ∀ s a, s.phase = .busy → P s → P (s.transact a)) (as : List Answer) (s : State) (h : P s) :
    P (s.serve as) := by
  induction as generalizing s with
  | nil => exact unused s [] h
  | cons a as ih =>
    cases hp : s.phase with
    | idle => exact State.serve_cons_idle hp a as ▸ unused s _ h
    | busy => exact State.serve_cons_busy hp a as ▸ ih _ (answered s a hp h)

/-- Served answers run out only where the block still waits. -/
theorem State.serve_busy_answers (as : List Answer) (s : State) (h : (s.serve as).phase = .busy) :
    (s.serve as).answers = [] := by
  induction as generalizing s with
  | nil => rfl
  | cons a as ih =>
    cases hp : s.phase with
    | idle => simp [State.serve_cons_idle hp, hp] at h
    | busy => rw [State.serve_cons_busy hp] at h ⊢; exact ih _ h

theorem State.phase_cases (s : State) : s.phase = .idle ∨ s.phase = .busy := by
  cases s.phase <;> simp

/-- An answered write does not look at the answers still to come. -/
theorem State.transact_unused (b : List Answer) (a : Answer) :
    State.transact { s with answers := b } a = { s.transact a with answers := b } := by
  cases a with
  | ok =>
    cases s with
    | mk mult zoff scale init phase seqStep latch port answers resetIn chipEvents responses busLog chip draws =>
      cases seqStep <;> rfl
  | err => rfl

/-- What is served is the list given, not the one the state holds. -/
theorem State.serve_unused (as b : List Answer) (s : State) : State.serve { s with answers := b } as = s.serve as := by
  induction as generalizing s b with
  | nil => rfl
  | cons a as ih =>
    rcases s.phase_cases with hp | hp
    · rw [State.serve_cons_idle hp, State.serve_cons_idle (s := { s with answers := b }) hp]
    · rw [State.serve_cons_busy hp, State.serve_cons_busy (s := { s with answers := b }) hp, State.transact_unused, ih]

/-! ### Accepting a command -/

@[simp] theorem State.acceptAngle_phase (ch : Nat) (deg : Int) : (s.acceptAngle ch deg).phase = .busy := by
  unfold State.acceptAngle; cases s.init <;> rfl

/-- A command presented to an IDLE block takes its effect. -/
theorem State.present_idle {s : State} (h : s.phase = .idle) (i : Instr) (f : State → State) : s.present i f = f s := by
  simp [State.present, h]

/-- A command presented to a BUSY block is held. -/
theorem State.present_busy {s : State} (h : s.phase = .busy) (i : Instr) (f : State → State) :
    s.present i f = s.hold (encode i) := by
  simp [State.present, h]

end Sys2Proof.Machine
end

