-- ==== Sys2Proof/Laws/PerInstr.lean ====
section
/-! SUPPORT. Facts about every command as syntax: its check evaluates to its well-formedness. -/

namespace Sys2Proof.Laws.WellFormedCheck

/-- The check that evaluates says exactly that the command is well-formed. -/
def Statement (i : Instr) : Prop := i.wellFormed = true ↔ i.WellFormed

theorem setMultiplier (v : Int) : Statement (.setMultiplier v) := decide_eq_true_iff

theorem setZeroOffset (v : Int) : Statement (.setZeroOffset v) := decide_eq_true_iff

theorem setScaleFactor (v : Int) : Statement (.setScaleFactor v) := decide_eq_true_iff

theorem writeAngle (ch : Nat) (deg : Int) : Statement (.writeAngle ch deg) := by
  simp [Statement, Instr.wellFormed, Instr.WellFormed]

end Sys2Proof.Laws.WellFormedCheck
end

