-- ==== Sys2Proof/Laws/Sequencer.lean ====
section
/-! SUPPORT. The sequencer as the list of writes it still has to make: one OK takes the first of them. -/

namespace Sys2Proof.Machine

/-- The writes of the command that have not been answered yet, the outstanding one first. -/
def State.remaining (s : State) : List (Byte × Byte) :=
  let channel : List (Byte × Byte) :=
    [(pulseL s.latch.ch, lowByte (s.pulse s.latch.d)), (pulseH s.latch.ch, highByte (s.pulse s.latch.d))]
  match s.seqStep with
  | .init1 => initSequence ++ channel
  | .init2 => initSequence.drop 1 ++ channel
  | .init3 => initSequence.drop 2 ++ channel
  | .init4 => initSequence.drop 3 ++ channel
  | .init5 => initSequence.drop 4 ++ channel
  | .init6 => initSequence.drop 5 ++ channel
  | .chLo => [(pulseL s.latch.ch, s.latch.lo), (pulseH s.latch.ch, s.latch.hb)]
  | .chHi => [(pulseH s.latch.ch, s.latch.hb)]

/-- The outstanding write is the first that remains. -/
theorem State.currentWrite_of_remaining {s : State} {w : Byte × Byte} {ws : List (Byte × Byte)}
    (h : s.remaining = w :: ws) : s.currentWrite = toDevice w := by
  unfold State.remaining at h
  unfold State.currentWrite
  split at h <;> rename_i hs <;> simp only [hs] <;> injection h with h _ <;> rw [← h] <;> rfl

theorem State.remaining_ne_nil (s : State) : s.remaining ≠ [] := by
  unfold State.remaining
  split <;> simp [initSequence]

/-- An initialization write is outstanding exactly while more than the two channel writes remain. -/
theorem State.isInit_iff_remaining (s : State) : s.seqStep.isInit = true ↔ 2 < s.remaining.length := by
  unfold State.remaining
  split <;> rename_i hs <;> simp [hs, SeqStep.isInit, initSequence]

/-- What a command has left unchanged so far, and that INIT tells which phase it is in. -/
structure State.Frame (s t : State) : Prop where
  mult : t.mult = s.mult
  zoff : t.zoff = s.zoff
  scale : t.scale = s.scale
  port : t.port = s.port
  resetIn : t.resetIn = s.resetIn
  chipEvents : t.chipEvents = s.chipEvents

theorem State.Frame.refl (s : State) : s.Frame s := ⟨rfl, rfl, rfl, rfl, rfl, rfl⟩

theorem State.Frame.trans {s t u : State} (h : s.Frame t) (h' : t.Frame u) : s.Frame u :=
  ⟨h'.1.trans h.1, h'.2.trans h.2, h'.3.trans h.3, h'.4.trans h.4, h'.5.trans h.5, h'.6.trans h.6⟩

theorem State.transact_frame (s : State) (a : Answer) : s.Frame (s.transact a) :=
  have h := s.transact_spec a
  ⟨h.1, h.2.1, h.2.2.1, h.2.2.2.1, h.2.2.2.2.1, h.2.2.2.2.2.1⟩

/-- An OK while more writes remain: the first is done, the next is outstanding. -/
theorem State.transact_ok_more {s : State} {w v : Byte × Byte} {ws : List (Byte × Byte)} (hp : s.phase = .busy)
    (hi : s.seqStep.isInit = !s.init) (h : s.remaining = w :: v :: ws) :
    (s.transact .ok).phase = .busy ∧ (s.transact .ok).remaining = v :: ws ∧
    (s.transact .ok).seqStep.isInit = !(s.transact .ok).init ∧
    (s.transact .ok).responses = s.responses ∧ (s.transact .ok).busLog = s.busLog ++ records [w] .ok ∧
    (s.transact .ok).chip = s.chip.delivered [w] ∧ (s.transact .ok).draws = s.draws := by
  have hw := State.currentWrite_of_remaining h
  refine ⟨?_, ?_, ?_, ?_, ?_, ?_, ?_⟩
  · unfold State.remaining at h
    simp only [State.transact, State.advance_phase]
    split at h <;> rename_i hs <;> simp_all
  · unfold State.remaining at h
    cases hs : s.seqStep <;> rw [hs] at h
    case chHi => simp at h
    all_goals
      injection h with _ h
      rw [← h]
      simp only [State.transact, State.advance, State.deliver_seqStep, State.logWrite_seqStep, hs]
      rfl
  · unfold State.remaining at h
    cases hs : s.seqStep <;> rw [hs] at h hi <;>
      simp_all [State.transact, State.advance, SeqStep.isInit]
  · unfold State.remaining at h
    simp only [State.transact, State.advance_responses]
    split at h <;> rename_i hs <;> simp_all
  · simp [State.transact, records, hw]
  · simp [State.transact, hw, toDevice]
  · simp [State.transact]

/-- The OK of the last write: the command is answered OK. -/
theorem State.transact_ok_last {s : State} {w : Byte × Byte} (h : s.remaining = [w]) :
    (s.transact .ok).phase = .idle ∧ (s.transact .ok).init = s.init ∧
    (s.transact .ok).responses = s.responses ++ [responseWord .ok 0] ∧
    (s.transact .ok).busLog = s.busLog ++ records [w] .ok ∧
    (s.transact .ok).chip = s.chip.delivered [w] ∧ (s.transact .ok).draws = s.draws := by
  have hw := State.currentWrite_of_remaining h
  have hs : s.seqStep = .chHi := by
    unfold State.remaining at h
    split at h <;> simp_all [initSequence]
  refine ⟨?_, ?_, ?_, ?_, ?_, ?_⟩
  · simp [State.transact, State.advance_phase, hs]
  · simp [State.transact, State.advance_init, hs]
  · simp [State.transact, State.advance_responses, hs]
  · simp [State.transact, records, hw]
  · simp [State.transact, hw, toDevice]
  · simp [State.transact]

theorem records_append (ws vs : List (Byte × Byte)) (r : TxResult) :
    records (ws ++ vs) r = records ws r ++ records vs r := by
  simp [records]

theorem Memory.delivered_append (m : Memory) (ws vs : List (Byte × Byte)) :
    m.delivered (ws ++ vs) = (m.delivered ws).delivered vs := by
  simp [Memory.delivered]

/-- The transport has answered OK to the writes `before`: they are done, the next is outstanding, and what the transport
answers from here on is served from the state reached. -/
theorem State.serve_ok_prefix {s : State} {before after : List (Byte × Byte)} {w : Byte × Byte} (hp : s.phase = .busy)
    (hi : s.seqStep.isInit = !s.init) (h : s.remaining = before ++ w :: after) :
    ∃ t, (∀ as, s.serve (List.replicate before.length .ok ++ as) = t.serve as) ∧ t.phase = .busy ∧
      t.remaining = w :: after ∧ t.seqStep.isInit = !t.init ∧ s.Frame t ∧ t.responses = s.responses ∧
      t.busLog = s.busLog ++ records before .ok ∧ t.chip = s.chip.delivered before ∧ t.draws = s.draws := by
  induction before generalizing s with
  | nil => exact ⟨s, fun _ => rfl, hp, h, hi, .refl s, rfl, by simp [records], rfl, rfl⟩
  | cons v before ih =>
    obtain ⟨x, xs, hx⟩ : ∃ x xs, before ++ w :: after = x :: xs := by cases before <;> simp
    have hm := State.transact_ok_more hp hi (v := x) (ws := xs) (by rw [h, List.cons_append, hx])
    obtain ⟨hp', hr', hi', hres, hlog, hchip, hdraws⟩ := hm
    obtain ⟨t, h1, h2, h3, h4, h5, h6, h7, h8, h9⟩ := ih hp' hi' (hr'.trans hx.symm)
    refine ⟨t, fun as => ?_, h2, h3, h4, (s.transact_frame .ok).trans h5, h6.trans hres, ?_, ?_, h9.trans hdraws⟩
    · rw [List.length_cons, List.replicate_succ, List.cons_append, State.serve_cons_busy hp, h1]
    · rw [h7, hlog, List.append_assoc, ← records_append, List.singleton_append]
    · rw [h8, hchip, ← Memory.delivered_append, List.singleton_append]

/-- What running the sequencer of a BUSY block can lead to, and from which answers: still BUSY and nothing answered, OK after
writes that all answered OK, or TRANSPORT_ERROR for the last write logged, which answered ERR. -/
theorem State.serve_cases {s : State} (hp : s.phase = .busy) (as : List Answer) :
    ∃ new : List BusRecord, (∀ r ∈ new, r.result = .ok) ∧
      (((s.serve as).phase = .busy ∧ (s.serve as).responses = s.responses ∧ (s.serve as).busLog = s.busLog ++ new) ∨
       ((s.serve as).phase = .idle ∧ (s.serve as).responses = s.responses ++ [responseWord .ok 0] ∧
        (s.serve as).busLog = s.busLog ++ new) ∨
       ∃ w : BusWrite, (s.serve as).phase = .idle ∧
        (s.serve as).responses = s.responses ++ [responseWord .transportError w.reg] ∧
        (s.serve as).busLog = s.busLog ++ new ++ [⟨w, .err⟩]) := by
  refine State.serve_induct (P := fun x => ∃ new : List BusRecord, (∀ r ∈ new, r.result = .ok) ∧
      ((x.phase = .busy ∧ x.responses = s.responses ∧ x.busLog = s.busLog ++ new) ∨
       (x.phase = .idle ∧ x.responses = s.responses ++ [responseWord .ok 0] ∧ x.busLog = s.busLog ++ new) ∨
       ∃ w : BusWrite, x.phase = .idle ∧ x.responses = s.responses ++ [responseWord .transportError w.reg] ∧
        x.busLog = s.busLog ++ new ++ [⟨w, .err⟩])) (fun _ _ h => h) ?_ as s ⟨[], by simp, .inl ⟨hp, rfl, by simp⟩⟩
  rintro x a hx ⟨new, hok, ⟨_, hres, hlog⟩ | ⟨hi, _⟩ | ⟨_, hi, _⟩⟩
  · cases a with
    | err =>
      exact ⟨new, hok, .inr (.inr ⟨x.currentWrite, x.transact_err.1, by rw [x.transact_err.2.2, hres],
        by simp [State.transact, hlog]⟩)⟩
    | ok =>
      refine ⟨new ++ [⟨x.currentWrite, .ok⟩], by simpa [or_imp, forall_and] using hok, ?_⟩
      by_cases hc : x.seqStep = .chHi
      · exact .inr (.inl ⟨by simp [State.transact, State.advance_phase, hc],
          by simp [State.transact, State.advance_responses, hc, hres], by simp [State.transact, hlog]⟩)
      · exact .inl ⟨by simp [State.transact, State.advance_phase, hc, hx],
          by simp [State.transact, State.advance_responses, hc, hres], by simp [State.transact, hlog]⟩
  · rw [hx] at hi; cases hi
  · rw [hx] at hi; cases hi

/-- A `writeAngle` accepted by an IDLE block: BUSY, its writes all remaining, nothing else changed. -/
theorem State.acceptAngle_spec (s : State) (ch : Nat) (deg : Int) :
    (s.acceptAngle ch deg).phase = .busy ∧ (s.acceptAngle ch deg).remaining = s.commandWrites ch deg ∧
    (s.acceptAngle ch deg).seqStep.isInit = !(s.acceptAngle ch deg).init ∧ (s.acceptAngle ch deg).init = s.init ∧
    s.Frame (s.acceptAngle ch deg) ∧ (s.acceptAngle ch deg).responses = s.responses ∧
    (s.acceptAngle ch deg).busLog = s.busLog ∧ (s.acceptAngle ch deg).chip = s.chip ∧
    (s.acceptAngle ch deg).draws = s.draws ∧ (s.acceptAngle ch deg).answers = s.answers := by
  unfold State.acceptAngle State.commandWrites State.remaining
  cases hi : s.init <;>
    exact ⟨rfl, rfl, by simp [SeqStep.isInit], by simp, ⟨rfl, rfl, rfl, rfl, rfl, rfl⟩, rfl, rfl, rfl, rfl, rfl⟩

end Sys2Proof.Machine
end

