-- ==== Sys2Proof/Laws/Step.lean ====
section
/-! SUPPORT. What one step can do, once: six cases. -/

namespace Sys2Proof.Machine

/-- The cases of a step, guards included: a reset; a change of the chip; the sequencer runs on; nothing is there to do; a
legal command is executed; an illegal word is answered. -/
theorem step_cases {s t : State} (h : step s = .next t) :
    (s.resetIn = true ∧ t = s.applyReset) ∨
    (s.resetIn = false ∧ ∃ e es, s.chipEvents = e :: es ∧ t = State.applyChipEvent { s with chipEvents := es } e) ∨
    (s.resetIn = false ∧ s.chipEvents = [] ∧ s.phase = .busy ∧ t = s.resume) ∨
    (s.resetIn = false ∧ s.chipEvents = [] ∧ s.phase = .idle ∧ s.port = [] ∧ t = s) ∨
    (s.resetIn = false ∧ s.chipEvents = [] ∧ s.phase = .idle ∧
      ∃ w ws i, s.port = w :: ws ∧ decode w = .ok i ∧ exec i { s with port := ws } = .next t) ∨
    (s.resetIn = false ∧ s.chipEvents = [] ∧ s.phase = .idle ∧
      ∃ w ws e, s.port = w :: ws ∧ decode w = .error e ∧ t = State.respondIllegal { s with port := ws }) := by
  unfold step cycle at h
  split at h
  · rename_i hr
    exact .inl ⟨hr, by injection h with h; exact h.symm⟩
  · rename_i e es hr he
    exact .inr (.inl ⟨hr, e, es, he, by injection h with h; exact h.symm⟩)
  · rename_i hr he
    unfold blockStep at h
    split at h
    · rename_i hp
      exact .inr (.inr (.inl ⟨hr, he, hp, by injection h with h; exact h.symm⟩))
    · rename_i hp hq
      exact .inr (.inr (.inr (.inl ⟨hr, he, hp, hq, by injection h with h; exact h.symm⟩)))
    · rename_i w ws hp hq
      unfold runWord at h
      split at h
      · rename_i i hd
        exact .inr (.inr (.inr (.inr (.inl ⟨hr, he, hp, w, ws, i, hq, hd, h⟩))))
      · rename_i e hd
        exact .inr (.inr (.inr (.inr (.inr ⟨hr, he, hp, w, ws, e, hq, hd, by injection h with h; exact h.symm⟩))))

/-! ### The step in each of its cases -/

theorem step_reset {s : State} (hr : s.resetIn = true) : step s = .next s.applyReset := by
  simp [step, cycle, hr]

theorem step_chipEvent {s : State} {e : ChipEvent} {es : List ChipEvent} (hr : s.resetIn = false)
    (he : s.chipEvents = e :: es) : step s = .next (State.applyChipEvent { s with chipEvents := es } e) := by
  simp [step, cycle, hr, he]

theorem step_busy {s : State} (hr : s.resetIn = false) (he : s.chipEvents = []) (hp : s.phase = .busy) :
    step s = .next s.resume := by
  simp [step, cycle, hr, he, blockStep, hp]

theorem step_idle {s : State} (hr : s.resetIn = false) (he : s.chipEvents = []) (hp : s.phase = .idle)
    (hq : s.port = []) : step s = .next s := by
  simp [step, cycle, hr, he, blockStep, hp, hq]

theorem step_word {s : State} {w : CommandWord} {ws : List CommandWord} (hr : s.resetIn = false)
    (he : s.chipEvents = []) (hp : s.phase = .idle) (hq : s.port = w :: ws) :
    step s = runWord w { s with port := ws } := by
  simp [step, cycle, hr, he, blockStep, hp, hq]

end Sys2Proof.Machine
end

