-- ==== Sys2Proof/Tests/Slice0.lean ====
section
/-! SUPPORT. The model's own tests: the ill-formed commands the check refuses, words decoded, one step each, and a witness
for the hypotheses of every statement. Expected values are those of spec/95_test_vectors.md where a vector is named. -/

namespace Sys2Proof.Tests

open Sys2Proof.Machine

/-! ### Ill-formed commands (30_encoding.md R63, R73) -/

theorem test_wf_refuses_mult_too_large : (Instr.setMultiplier 2147483648).wellFormed = false := by decide
theorem test_wf_refuses_mult_too_small : (Instr.setMultiplier (-2147483649)).wellFormed = false := by decide
theorem test_wf_refuses_zoff_too_large : (Instr.setZeroOffset 2147483648).wellFormed = false := by decide
theorem test_wf_refuses_scale_too_small : (Instr.setScaleFactor (-2147483649)).wellFormed = false := by decide
theorem test_wf_refuses_channel_zero : (Instr.writeAngle 0 90).wellFormed = false := by decide
theorem test_wf_refuses_channel_seventeen : (Instr.writeAngle 17 90).wellFormed = false := by decide
theorem test_wf_refuses_angle_too_large : (Instr.writeAngle 1 2147483648).wellFormed = false := by decide
theorem test_wf_accepts_the_limits :
    (Instr.writeAngle 16 2147483647).wellFormed = true ∧ (Instr.writeAngle 1 (-2147483648)).wellFormed = true := by decide

/-! ### Decoding, bit by bit from the fields of 30_encoding.md R60: OP, CH, RSV, ARG -/

/-- `setMultiplier 226` -/
theorem test_decode_setMultiplier :
    decode 0b0001000000000000000000000000000000000000000000000000000011100010 = .ok (.setMultiplier 226) := by decide
/-- `setZeroOffset 0xCC` -/
theorem test_decode_setZeroOffset :
    decode 0b0010000000000000000000000000000000000000000000000000000011001100 = .ok (.setZeroOffset 204) := by decide
/-- `setScaleFactor -2` -/
theorem test_decode_setScaleFactor :
    decode 0b0011000000000000000000000000000011111111111111111111111111111110 = .ok (.setScaleFactor (-2)) := by decide
/-- `writeAngle 11, -2147483648` -/
theorem test_decode_writeAngle :
    decode 0b0100101000000000000000000000000010000000000000000000000000000000 = .ok (.writeAngle 11 (-2147483648)) := by
  decide
/-- RSV bit 55, the highest, makes a setter illegal (R64). -/
theorem test_decode_reserved :
    decode 0b0001000010000000000000000000000000000000000000000000000000000000 = .error .reservedBits := by decide
/-- vectors E7, E12 through the table's numbering -/
theorem test_decodeTableWord :
    decodeTableWord 64 0x4F0000000000002D = some (.writeAngle 16 45) ∧ decodeTableWord 64 0xF000000000000000 = none := by
  decide

/-- The wire order of a transaction (20_memory.md R51): register, then value. -/
theorem test_payload : (BusWrite.mk 0x6A 0xFC 0x66).payload = [0xFC, 0x66] := by decide

/-! ### One step -/

/-- The state after an outcome; `fallback` where there is none. -/
def after (o : Host.Outcome State Fault Refusal) (fallback : State) : State :=
  match o with
  | .next t => t
  | .fault _ => fallback
  | .refused _ => fallback

/-- An IDLE block with the reset trims. -/
def idle (init : Bool) (answers : List Answer) : State := { State.reset with init := init, answers := answers }

/-- A BUSY block with the reset trims, channel 1 at angle 1. -/
def busy (k : SeqStep) (answers : List Answer) : State :=
  { State.reset with init := !k.isInit, phase := .busy, seqStep := k, latch := ⟨1, 1, 0x67, 0x00⟩, answers := answers }

/-- The state after the step that runs a command word. -/
def ran (s : State) (w : Nat) : State := after (step (s.withFetchWord 64 w)) s

/-- T2 -/
theorem test_setMultiplier_low : (ran State.reset 0x10000000FFFFFFFB).mult = 113 := by decide
/-- T6 -/
theorem test_setMultiplier_inside : (ran State.reset 0x1000000000000096).mult = 150 := by decide
/-- T17 -/
theorem test_setZeroOffset_high : (ran State.reset 0x20000000000000FF).zoff = 0xCC := by decide
/-- T14 -/
theorem test_setZeroOffset_inside : (ran State.reset 0x2000000000000099).zoff = 0x99 := by decide
/-- T22 -/
theorem test_setScaleFactor_least : sint32 (ran State.reset 0x3000000080000000).scale = -2147483648 := by decide
/-- T19 -/
theorem test_setScaleFactor_zero : (ran State.reset 0x3000000000000000).scale = 0 := by decide
/-- A15: the first truncated pulse -/
theorem test_writeAngle_truncates : (ran (idle true [.ok, .ok]) 0x4E000000000000E3).busLog =
    [⟨⟨0x6A, 0x40, 0x00⟩, .ok⟩, ⟨⟨0x6A, 0x41, 0x01⟩, .ok⟩] := by decide
/-- I6: the sixth write fails; INFO is the Mode-1 address 0x00 -/
theorem test_writeAngle_init_fails :
    (ran (idle false [.ok, .ok, .ok, .ok, .ok, .err]) 0x4000000000000001).responses = [0x0001] := by decide
/-- I0: the six writes come first -/
theorem test_writeAngle_initializes : (ran (idle false (List.replicate 8 .ok)) 0x4000000000000001).busLog =
    [⟨⟨0x6A, 0xFE, Config.prescaleVal⟩, .ok⟩, ⟨⟨0x6A, 0xFA, 0x00⟩, .ok⟩, ⟨⟨0x6A, 0xFB, 0x00⟩, .ok⟩,
     ⟨⟨0x6A, 0xFC, 0x66⟩, .ok⟩, ⟨⟨0x6A, 0xFD, 0x00⟩, .ok⟩, ⟨⟨0x6A, 0x00, Config.mode1WakeVal⟩, .ok⟩,
     ⟨⟨0x6A, 0x08, 0x67⟩, .ok⟩, ⟨⟨0x6A, 0x09, 0x00⟩, .ok⟩] := by rfl
/-- A23, A24, A25 and A26: pulses below 0 and at the extremes -/
theorem test_pulse_extremes :
    lowByte (pulseOf 1 (-10000) 113 0x66) = 0xF5 ∧ lowByte (pulseOf 10 (-2147483648) 226 0x66) = 0xFD ∧
    lowByte (pulseOf 2147483647 2147483647 226 0xCC) = 0x8D ∧
    lowByte (pulseOf 2147483647 (-2147483648) 226 0x66) = 0x19 := by decide
/-- E10: the all-zero word is illegal -/
theorem test_illegal : ran State.reset 0 = { State.reset with responses := [0x0002] } := by decide

/-! ### Witnesses: the hypotheses of each statement are met together -/

theorem witness_DecodeOfEncodeIsTheCommand :
    (Instr.setMultiplier (-2147483648)).WellFormed ∧ (Instr.setZeroOffset 2147483647).WellFormed ∧
    (Instr.setScaleFactor (-1)).WellFormed ∧ (Instr.writeAngle 1 0).WellFormed ∧ (Instr.writeAngle 16 0).WellFormed := by
  decide

theorem witness_EncodeOfDecodeIsTheWord : ∃ w i, decode w = .ok i := ⟨0x4F0000000000002D, .writeAngle 16 45, by decide⟩

theorem witness_DecodeFollowsTheFields :
    Spec.rsv 0x1000000100000000 ≠ 0 ∧
    (Spec.rsv 0x1000000000000000 = 0 ∧ Spec.op 0x1000000000000000 = 1 ∧ Spec.ch 0x1000000000000000 = 0) ∧
    (Spec.rsv 0x20000000FFFFFFFF = 0 ∧ Spec.op 0x20000000FFFFFFFF = 2 ∧ Spec.ch 0x20000000FFFFFFFF = 0) ∧
    (Spec.rsv 0x3000000080000000 = 0 ∧ Spec.op 0x3000000080000000 = 3 ∧ Spec.ch 0x3000000080000000 = 0) ∧
    (Spec.rsv 0x4F00000000000000 = 0 ∧ Spec.op 0x4F00000000000000 = 4) ∧
    Spec.IsIllegal 0x5000000000000000 ∧ Spec.IsIllegal 0x3F00000000000000 ∧ ¬ Spec.IsIllegal 0x4F00000000000000 := by
  decide

theorem witness_OpcodeMapSelectsTheCommand :
    rowSetMultiplier.Matches 0x1000000000000071 ∧ rowWriteAngle.Matches 0x4F0000000000002D ∧
    ∀ r ∈ opcodeMap, ¬ r.Matches 0x5000000000000000 := by decide

theorem witness_AssembledLineIsOneLegalWord :
    assemble "writeAngle 1, 90".toList = some 0x400000000000005A := by decide

theorem witness_StepRunsTheDecodedCommand : ∃ (s : State) (w : CommandWord) (ws : List CommandWord) (i : Instr),
    s.phase = .idle ∧ s.resetIn = false ∧ s.chipEvents = [] ∧ s.port = w :: ws ∧ decode w = .ok i :=
  ⟨State.reset.withFetchWord 64 0x400000000000005A, _, _, .writeAngle 1 90, rfl, rfl, rfl, rfl, by decide⟩

theorem witness_IllegalWordIsAnsweredWithoutEffect :
    (∃ (s : State) (w : CommandWord) (ws : List CommandWord), s.phase = .idle ∧ s.resetIn = false ∧ s.chipEvents = [] ∧
      s.port = w :: ws ∧ Spec.IsIllegal w) ∧
    (∃ (s t : State) (w : CommandWord) (ws : List CommandWord), s.phase = .idle ∧ s.resetIn = false ∧ s.chipEvents = [] ∧
      s.port = w :: ws ∧ ¬ Spec.IsIllegal w ∧ step s = .next t ∧ t.responses.drop s.responses.length ≠ []) :=
  ⟨⟨State.reset.withFetchWord 64 0x1100000000000071, _, _, rfl, rfl, rfl, rfl, by decide⟩,
   ⟨State.reset.withFetchWord 64 0x1000000000000071, _, _, _, rfl, rfl, rfl, rfl, by decide, rfl, by decide⟩⟩

theorem witness_PortHoldsCommandsWhileBusy :
    (∃ s t : State, s.phase = .busy ∧ s.resetIn = false ∧ s.port ≠ [] ∧ step s = .next t) ∧
    (∃ (s : State) (w : CommandWord) (ws : List CommandWord),
      s.phase = .idle ∧ s.resetIn = false ∧ s.chipEvents = [] ∧ s.port = w :: ws) :=
  ⟨⟨{ busy .chLo [.ok] with port := [0] }, _, rfl, rfl, by decide, rfl⟩,
   ⟨State.reset.withFetchWord 64 0, _, _, rfl, rfl, rfl, rfl⟩⟩

theorem witness_UnansweredBlockWaitsForEver :
    ∃ s : State, s.phase = .busy ∧ s.answers = [] ∧ s.resetIn = false ∧ s.chipEvents = [] :=
  ⟨busy .init3 [], rfl, rfl, rfl, rfl⟩

theorem witness_LogsGrowAndOneResponseAtMost : ∃ s t : State, step s = .next t ∧ t.responses ≠ s.responses :=
  ⟨State.reset.withFetchWord 64 0, _, rfl, by decide⟩

/-- both ends and the inside of each range -/
theorem witness_setters : (∃ s : State, s.phase = .idle ∧ s.TrimsInRange) ∧
    FitsInt32 112 ∧ FitsInt32 113 ∧ FitsInt32 226 ∧ FitsInt32 227 ∧ FitsInt32 0x65 ∧ FitsInt32 0xCD ∧ FitsInt32 0 ∧
    FitsInt32 (-2147483648) :=
  ⟨⟨State.reset, rfl, by decide⟩, by decide⟩

/-- the masks of the setters' encoding clauses -/
theorem witness_setter_words :
    (0x1000000000000071 : CommandWord) &&& 0xFFFFFFFF00000000 = 0x1000000000000000 ∧
    (0x2000000000000066 : CommandWord) &&& 0xFFFFFFFF00000000 = 0x2000000000000000 ∧
    (0x30000000FFFFFFFF : CommandWord) &&& 0xFFFFFFFF00000000 = 0x3000000000000000 := by decide

/-- each setter, and INIT = 0 -/
theorem witness_SettersNeitherInitializeNorWrite : ∃ s : State, s.phase = .idle ∧ s.init = false ∧
    ∀ i ∈ [Instr.setMultiplier 113, .setZeroOffset 0xCC, .setScaleFactor 0],
      ∃ v, i = .setMultiplier v ∨ i = .setZeroOffset v ∨ i = .setScaleFactor v :=
  ⟨State.reset, rfl, rfl, by simp⟩

/-- with INIT = 1 and with INIT = 0 -/
theorem witness_SetterTakesEffectForTheNextCommand : ∀ init : Bool, ∃ (s : State) (v : Int) (rest : List Answer),
    s.phase = .idle ∧ s.init = init ∧ s.answers = List.replicate (if s.init then 2 else 8) .ok ++ rest ∧ FitsInt32 v
  | true => ⟨idle true [.ok, .ok], 150, [], rfl, rfl, rfl, by decide⟩
  | false => ⟨idle false (List.replicate 8 .ok), 150, [], rfl, rfl, rfl, by decide⟩

/-- for the initialization clause of SetZeroOffsetStoresTheClampedValue, with another ZOFF -/
theorem witness_step4_is_outstanding : ∃ s : State,
    s.phase = .idle ∧ s.init = false ∧ s.answers = [.ok, .ok, .ok] ∧ s.zoff = 0xCC :=
  ⟨{ idle false [.ok, .ok, .ok] with zoff := 0xCC }, rfl, rfl, rfl, rfl⟩

/-- an answer of each kind to a `writeAngle`, and none, in the step that takes it and in a later one -/
theorem witness_LegalCommandsAnswerOnlyTheirStatuses :
    (∃ s t : State, s.phase = .idle ∧ exec (.writeAngle 1 1) s = .next t ∧ t.phase = .busy) ∧
    (∃ s t : State, s.phase = .idle ∧ exec (.writeAngle 1 1) s = .next t ∧ t.responses = [0x0000]) ∧
    (∃ s t : State, s.phase = .idle ∧ exec (.writeAngle 1 1) s = .next t ∧ t.responses = [0x0901]) ∧
    (∃ s t : State, s.phase = .busy ∧ s.resetIn = false ∧ step s = .next t ∧ t.phase = .busy) ∧
    (∃ s t : State, s.phase = .busy ∧ s.resetIn = false ∧ step s = .next t ∧ t.responses = [0x0000]) ∧
    (∃ s t : State, s.phase = .busy ∧ s.resetIn = false ∧ step s = .next t ∧ t.responses = [0xFB01]) :=
  ⟨⟨State.reset, _, rfl, rfl, rfl⟩, ⟨idle true [.ok, .ok], _, rfl, rfl, by decide⟩,
   ⟨idle true [.ok, .err], _, rfl, rfl, by decide⟩, ⟨busy .chLo [], _, rfl, rfl, rfl, rfl⟩,
   ⟨busy .chHi [.ok], _, rfl, rfl, rfl, by decide⟩, ⟨busy .init3 [.err], _, rfl, rfl, rfl, by decide⟩⟩

/-- the two sides of the high bit's threshold, of 0 and of 511 -/
theorem witness_pulse_ranges :
    highByte 255 = 0 ∧ highByte 256 = 1 ∧ highByte (-1) = 0 ∧ carried 511 = 511 ∧ carried 512 = 256 ∧
    carried (-1) = 255 ∧ carried 0 = 0 := by decide

theorem witness_PipelineNeverOverflows : ∃ (d : Int) (mult zoff : Nat),
    1 ≤ d ∧ d ≤ 2 ^ 31 - 1 ∧ 113 ≤ mult ∧ mult ≤ 226 ∧ 0x66 ≤ zoff ∧ zoff ≤ 0xCC := ⟨2147483647, 226, 0xCC, by decide⟩

theorem witness_ChannelRegistersAreFourApart : IsChannel 1 ∧ IsChannel 16 := by decide

/-- a channel write outstanding: the latched bytes are those of angle 1 -/
theorem inv_busy_chHi (answers : List Answer) : (busy .chHi answers).Inv :=
  ⟨(by decide : State.reset.TrimsInRange),
    fun _ => ⟨(by decide : IsChannel 1), (by decide : (1 : Int) ≤ 1), (by decide : (1 : Int) ≤ 2147483647), rfl,
      fun _ => ⟨(by decide : (0x67 : Byte) = lowByte (State.reset.pulse 1)),
        (by decide : (0x00 : Byte) = highByte (State.reset.pulse 1))⟩⟩,
    by simp [busy, State.reset], by simp [busy, State.reset], Memory.wf_reset⟩

/-- an initialization write outstanding -/
theorem inv_busy_init3 (answers : List Answer) : (busy .init3 answers).Inv :=
  ⟨(by decide : State.reset.TrimsInRange),
    fun _ => ⟨(by decide : IsChannel 1), (by decide : (1 : Int) ≤ 1), (by decide : (1 : Int) ≤ 2147483647), rfl,
      fun h => by simp [busy, SeqStep.isInit] at h⟩,
    by simp [busy, State.reset], by simp [busy, State.reset], Memory.wf_reset⟩

/-- for OnlyListedRegistersAreWritten and EveryStepKeepsInv -/
theorem witness_EveryStepKeepsInv :
    (∃ s t : State, s.Inv ∧ step s = .next t ∧ t.busLog ≠ []) ∧
    (∃ s t : State, s.Inv ∧ step s = .next t ∧ s.seqStep = .init3 ∧ t.responses ≠ []) :=
  ⟨⟨busy .chHi [.ok], _, inv_busy_chHi _, rfl, by decide⟩, ⟨busy .init3 [.err], _, inv_busy_init3 _, rfl, rfl, by decide⟩⟩

theorem witness_WriteAngleDrivesTheChannel : ∃ (s : State) (ch : Nat) (deg : Int) (rest : List Answer),
    IsChannel ch ∧ FitsInt32 deg ∧ s.phase = .idle ∧ s.init = true ∧ s.answers = .ok :: .ok :: rest :=
  ⟨idle true [.ok, .ok], 16, 255, [], by decide, by decide, rfl, rfl, rfl⟩

theorem witness_FirstWriteAngleInitializesTheChip : ∃ (s : State) (ch : Nat) (deg : Int) (rest : List Answer),
    IsChannel ch ∧ FitsInt32 deg ∧ s.phase = .idle ∧ s.init = false ∧ s.answers = List.replicate 8 .ok ++ rest :=
  ⟨idle false (List.replicate 8 .ok), 1, 90, [], by decide, by decide, rfl, rfl, rfl⟩

/-- a failing initialization write and a failing channel write -/
theorem witness_FirstFailedWriteEndsTheCommand :
    (∃ (s : State) (before after : List (Byte × Byte)) (w : Byte × Byte), s.phase = .idle ∧ s.init = false ∧
      s.commandWrites 1 1 = before ++ w :: after ∧ s.answers = List.replicate before.length .ok ++ .err :: []) ∧
    (∃ (s : State) (before after : List (Byte × Byte)) (w : Byte × Byte), s.phase = .idle ∧ s.init = true ∧
      s.commandWrites 1 1 = before ++ w :: after ∧ s.answers = List.replicate before.length .ok ++ .err :: []) :=
  ⟨⟨idle false [.err], [], _, _, rfl, rfl, rfl, rfl⟩, ⟨idle true [.ok, .err], [_], [], _, rfl, rfl, rfl, rfl⟩⟩

theorem witness_UnansweredWriteStaysOutstanding :
    ∃ (s : State) (before after : List (Byte × Byte)) (w : Byte × Byte), s.phase = .idle ∧
      s.commandWrites 1 1 = before ++ w :: after ∧ s.answers = List.replicate before.length .ok :=
  ⟨idle true [.ok], [_], [], _, rfl, rfl, rfl⟩

/-- resumed, and done with answers left over -/
theorem witness_LateAnswersMakeNoDifference :
    (∃ (s t : State) (early : List Answer), s.phase = .idle ∧ s.resetIn = false ∧ s.chipEvents = [] ∧
      exec (.writeAngle 1 1) { s with answers := early } = .next t ∧ t.phase = .busy) ∧
    (∃ (s t : State) (early : List Answer), s.phase = .idle ∧ s.resetIn = false ∧ s.chipEvents = [] ∧
      exec (.writeAngle 1 1) { s with answers := early } = .next t ∧ t.phase = .idle ∧ t.answers ≠ []) :=
  ⟨⟨State.reset, _, [.ok, .ok, .ok], rfl, rfl, rfl, rfl, rfl⟩, ⟨State.reset, _, [.err, .ok], rfl, rfl, rfl, rfl, rfl, by decide⟩⟩

theorem witness_AnglesBelowOneActAsOne : ∀ init : Bool, ∃ s : State, s.phase = .idle ∧ s.init = init ∧ s.answers = [] :=
  fun init => ⟨idle init [], rfl, rfl, rfl⟩

theorem witness_RetryRunsTheWholeSequence :
    ∃ (s : State) (before after : List (Byte × Byte)) (w : Byte × Byte) (rest : List Answer),
      s.phase = .idle ∧ s.init = false ∧ initSequence = before ++ w :: after ∧
      s.answers = List.replicate before.length .ok ++ .err :: (List.replicate 8 .ok ++ rest) :=
  ⟨idle false (.ok :: .ok :: .err :: List.replicate 8 .ok), [_, _], _, _, [], rfl, rfl, rfl, rfl⟩

theorem witness_SecondWriteAngleSendsNoInitWrites : ∃ (s : State) (rest : List Answer),
    s.phase = .idle ∧ s.init = false ∧ s.answers = List.replicate 10 .ok ++ rest :=
  ⟨idle false (List.replicate 10 .ok), [], rfl, rfl, rfl⟩

theorem witness_NoInitWriteOnceInitialized : ∃ s t : State,
    s.Inv ∧ s.init = true ∧ s.resetIn = false ∧ step s = .next t ∧ t.busLog ≠ [] :=
  ⟨busy .chHi [.ok], _, inv_busy_chHi _, rfl, rfl, rfl, by decide⟩

/-- for ChannelRegistersCarryThePulse and ChipHoldsTheDeliveredBytes; the pulses on the two sides of 511 and of 0 -/
theorem witness_ChannelRegistersCarryThePulse :
    (∃ (s : State) (ch : Nat) (deg : Int) (rest : List Answer),
      IsChannel ch ∧ s.phase = .idle ∧ s.answers = List.replicate (s.commandWrites ch deg).length .ok ++ rest) ∧
    (∃ s : State, s.pulse 1 = 511) ∧ (∃ s : State, s.pulse 1 = 512) ∧ (∃ s : State, s.pulse 1 = 0) ∧
    (∃ s : State, s.pulse 1 = -1) :=
  ⟨⟨idle true [.ok, .ok], 1, 227, [], by decide, rfl, rfl⟩,
   ⟨⟨{ State.reset with mult := 125, scale := 24560, zoff := 204 }, by decide⟩,
    ⟨{ State.reset with mult := 125, scale := 24640, zoff := 204 }, by decide⟩,
    ⟨{ State.reset with mult := 125, scale := -8160 }, by decide⟩,
    ⟨{ State.reset with mult := 125, scale := -8240 }, by decide⟩⟩⟩

/-- for the statements about every `writeAngle` of an IDLE block: frame, number of writes -/
theorem witness_WriteAngleFrame : ∃ s t : State,
    s.phase = .idle ∧ exec (.writeAngle 16 90) s = .next t ∧ t.busLog.length = 2 :=
  ⟨idle true [.ok, .ok], _, rfl, rfl, rfl⟩

/-- A register no write has reached holds a byte, and a delivered byte is read back whatever that one is (R40). -/
theorem test_register_after_delivery : (Memory.reset.write 0x08 0x67).read 0x08 = 0x67 :=
  Memory.read_write_same ..

theorem witness_TornChannelValueUntilTheNextSuccess : ∃ (s : State) (ch : Nat) (rest : List Answer),
    IsChannel ch ∧ s.phase = .idle ∧ s.init = true ∧ s.answers = .ok :: .err :: .ok :: .ok :: rest :=
  ⟨idle true [.ok, .err, .ok, .ok], 6, [], by decide, rfl, rfl, rfl⟩

/-- two states that differ in what is said not to matter -/
theorem witness_WriteAngleDependsOnNothingElse : ∃ s s' t t' : State,
    s.phase = .idle ∧ s'.phase = .idle ∧ s.mult = s'.mult ∧ s.zoff = s'.zoff ∧ s.scale = s'.scale ∧ s.init = s'.init ∧
    s.answers = s'.answers ∧ s ≠ s' ∧ exec (.writeAngle 1 1) s = .next t ∧ exec (.writeAngle 1 1) s' = .next t' :=
  ⟨idle true [.ok], { idle true [.ok] with responses := [0], seqStep := .chHi, draws := 3 }, _, _, rfl, rfl, rfl, rfl, rfl,
    rfl, rfl, by decide, rfl, rfl⟩

theorem witness_WriteAngleTwiceInARow : ∃ (s : State) (rest : List Answer),
    s.phase = .idle ∧ s.init = true ∧ s.answers = .ok :: .ok :: .ok :: .ok :: rest :=
  ⟨idle true [.ok, .ok, .ok, .ok], [], rfl, rfl, rfl⟩

theorem witness_NextWriteOnlyAfterSuccess : ∃ s t : State,
    s.resetIn = false ∧ step s = .next t ∧ t.busLog.map (·.result) = [.ok, .err] :=
  ⟨busy .chLo [.ok, .err], _, rfl, rfl, rfl⟩

/-- INIT going up in a step, INIT already up, a reset -/
theorem witness_InitIsSetBySixWritesAndClearedByReset :
    (∃ s t : State, step s = .next t ∧ s.init = false ∧ t.init = true) ∧
    (∃ s t : State, step s = .next t ∧ s.init = true ∧ s.resetIn = false) ∧
    (∃ s t : State, step s = .next t ∧ s.init = true ∧ s.resetIn = true) ∧
    (∃ s t : State, s.phase = .idle ∧ s.answers = [] ∧ exec (.writeAngle 1 1) s = .next t) :=
  ⟨⟨busy .init6 [.ok], _, rfl, rfl, rfl⟩, ⟨idle true [], _, rfl, rfl, rfl⟩,
   ⟨{ idle true [] with resetIn := true }, _, rfl, rfl, rfl⟩, ⟨State.reset, _, rfl, rfl, rfl⟩⟩

theorem witness_SixthWriteSetsInit :
    (∃ s : State, s.phase = .busy ∧ s.seqStep = .init6 ∧ s.answers = [.ok] ∧ s.resetIn = false ∧ s.chipEvents = []) ∧
    (∃ s t : State, s.init = true ∧ s.resetIn = false ∧ step s = .next t) :=
  ⟨⟨busy .init6 [.ok], rfl, rfl, rfl, rfl, rfl⟩, ⟨busy .chLo [.err], _, rfl, rfl, rfl⟩⟩

/-- a channel write fails -/
theorem witness_ErrorsArePrecise : ∃ (s t : State) (r : ResponseWord),
    s.Inv ∧ s.resetIn = false ∧ step s = .next t ∧ t.responses = s.responses ++ [r] ∧ IsError r :=
  ⟨busy .chHi [.err], _, 0x0901, inv_busy_chHi _, rfl, rfl, by decide, by decide⟩

theorem witness_FailedWriteLeavesItsRegisterOpen : ∃ (s : State) (w : BusWrite) (rest : List Answer),
    s.outstanding = some w ∧ s.answers = .err :: rest ∧ s.resetIn = false ∧ s.chipEvents = [] :=
  ⟨busy .chHi [.err], _, [], rfl, rfl, rfl, rfl⟩

theorem witness_ChipEventsGoUnnoticed :
    (∃ (s : State) (e : ChipEvent) (es : List ChipEvent), s.resetIn = false ∧ s.chipEvents = e :: es ∧ e = .lost) ∧
    (∃ (s : State) (e : ChipEvent) (es : List ChipEvent),
      s.resetIn = false ∧ s.chipEvents = e :: es ∧ e = .written 0xFE 0x85) :=
  ⟨⟨{ State.reset with chipEvents := [.lost] }, _, _, rfl, rfl, rfl⟩,
   ⟨{ State.reset with chipEvents := [.written 0xFE 0x85] }, _, _, rfl, rfl, rfl⟩⟩

/-- with a write outstanding, and with none -/
theorem witness_ResetAbandonsTheCommand :
    (∃ (s : State) (w : BusWrite), s.resetIn = true ∧ s.outstanding = some w) ∧
    (∃ s : State, s.resetIn = true ∧ s.outstanding = none) :=
  ⟨⟨{ busy .init3 [] with resetIn := true }, _, rfl, rfl⟩, ⟨{ State.reset with resetIn := true }, rfl, rfl⟩⟩

/-- a step that leaves the block BUSY in the initialization phase, and one in the channel phase -/
theorem witness_IdleBlockIgnoresItsLatches :
    (∃ s t : State, s.phase = .idle ∧ step s = .next t ∧ t.phase = .busy ∧ t.seqStep.isInit = true) ∧
    (∃ s t : State, s.phase = .idle ∧ step s = .next t ∧ t.phase = .busy ∧ t.seqStep.isInit = false) :=
  ⟨⟨State.reset.withFetchWord 64 0x4000000000000001, _, rfl, rfl, rfl, rfl⟩,
   ⟨(idle true []).withFetchWord 64 0x4000000000000001, _, rfl, rfl, rfl, rfl⟩⟩

theorem witness_TrimsAreAlwaysInRange : ∃ s t : State, s.TrimsInRange ∧ step s = .next t ∧ t.mult ≠ s.mult :=
  ⟨State.reset.withFetchWord 64 0x1000000000000071, _, by decide, rfl, by decide⟩

end Sys2Proof.Tests
end

section
/-! What a command does to the block that takes it, one equation per command and one for a BUSY block. -/

namespace Sys2Proof.Machine

/-- A BUSY block holds every command at its port (70_reset_and_hazards.md R147). -/
theorem exec_busy {s : State} (h : s.phase = .busy) (i : Instr) : exec i s = .next (s.hold (encode i)) := by
  cases i <;> exact congrArg _ (State.present_busy h _ _)

theorem exec_setMultiplier_idle {s : State} (h : s.phase = .idle) (v : Int) :
    exec (.setMultiplier v) s = .next (s.storeMult v).respondOk :=
  congrArg _ (State.present_idle h _ _)

theorem exec_setZeroOffset_idle {s : State} (h : s.phase = .idle) (v : Int) :
    exec (.setZeroOffset v) s = .next (s.storeZoff v).respondOk :=
  congrArg _ (State.present_idle h _ _)

theorem exec_setScaleFactor_idle {s : State} (h : s.phase = .idle) (v : Int) :
    exec (.setScaleFactor v) s = .next (s.storeScale v).respondOk :=
  congrArg _ (State.present_idle h _ _)

theorem exec_writeAngle_idle {s : State} (h : s.phase = .idle) (ch : Nat) (deg : Int) :
    exec (.writeAngle ch deg) s = .next (s.acceptAngle ch deg).resume :=
  congrArg _ (State.present_idle h _ _)

end Sys2Proof.Machine
end

section
/-! `INIT` (10_state.md R27): the bus log explains every rise of it, and only a reset clears it. -/

namespace Sys2Proof.Machine

/-- The log entry of the sixth initialization write answered OK (41_init.md R91, R93). -/
def sixthInitWriteOk : BusRecord := ⟨⟨0x6A, 0x00, Config.mode1WakeVal⟩, .ok⟩

/-- From `s` to `t` INIT is not cleared, the bus log only grows, and if INIT has risen the sixth initialization write's OK is
among what was added. -/
structure State.InitFollowsLog (s t : State) : Prop where
  kept : s.init = true → t.init = true
  raised : ∃ new, t.busLog = s.busLog ++ new ∧ (t.init = true → s.init = true ∨ sixthInitWriteOk ∈ new)

/-- Whatever leaves INIT and the log alone. -/
theorem State.InitFollowsLog.of_eq {s t : State} (hinit : t.init = s.init) (hlog : t.busLog = s.busLog) :
    s.InitFollowsLog t :=
  ⟨fun h => hinit.trans h, [], by simp [hlog], fun h => .inl (hinit ▸ h)⟩

theorem State.InitFollowsLog.trans {s t u : State} (hst : s.InitFollowsLog t) (htu : t.InitFollowsLog u) :
    s.InitFollowsLog u := by
  obtain ⟨hkeep, new, hlog, hraise⟩ := hst
  obtain ⟨hkeep', new', hlog', hraise'⟩ := htu
  refine ⟨hkeep' ∘ hkeep, new ++ new', by rw [hlog', hlog, List.append_assoc], fun hu => ?_⟩
  rcases hraise' hu with ht | hnew'
  · exact (hraise ht).imp_right (List.mem_append_left _)
  · exact .inr (List.mem_append_right _ hnew')

/-- At `STEP` 6 the write is the sixth initialization write. -/
theorem State.currentWrite_init6 {s : State} (h : s.seqStep = .init6) :
    (⟨s.currentWrite, .ok⟩ : BusRecord) = sixthInitWriteOk := by
  simp only [State.currentWrite, h]
  rfl

/-- One answered write: only an OK at `STEP` 6 raises INIT, and that write joins the log with it. -/
theorem State.transact_initFollowsLog (s : State) (a : Answer) : s.InitFollowsLog (s.transact a) := by
  cases a with
  | err => exact ⟨id, [⟨s.currentWrite, .err⟩], by simp [State.transact], .inl⟩
  | ok =>
    have hinit : (s.transact .ok).init = (s.init || decide (s.seqStep = .init6)) := State.advance_init _
    refine ⟨fun h => by simp [hinit, h], [⟨s.currentWrite, .ok⟩], by simp [State.transact], fun h => ?_⟩
    rw [hinit, Bool.or_eq_true, decide_eq_true_iff] at h
    exact h.imp_right fun hstep => List.mem_singleton.2 (State.currentWrite_init6 hstep).symm

theorem State.serve_initFollowsLog (s : State) (as : List Answer) : s.InitFollowsLog (s.serve as) :=
  State.serve_induct (P := s.InitFollowsLog) (fun _ _ h => h.trans (.of_eq rfl rfl))
    (fun x a _ h => h.trans (x.transact_initFollowsLog a)) as s (.of_eq rfl rfl)

theorem State.acceptAngle_initFollowsLog (s : State) (ch : Nat) (deg : Int) :
    s.InitFollowsLog (s.acceptAngle ch deg) := by
  obtain ⟨_, _, _, hinit, _, _, hlog, _⟩ := s.acceptAngle_spec ch deg
  exact .of_eq hinit hlog

theorem exec_initFollowsLog {s t : State} {i : Instr} (h : exec i s = .next t) : s.InitFollowsLog t := by
  rcases s.phase_cases with hidle | hbusy
  · cases i with
    | setMultiplier v => cases (exec_setMultiplier_idle hidle v).symm.trans h; exact .of_eq rfl rfl
    | setZeroOffset v => cases (exec_setZeroOffset_idle hidle v).symm.trans h; exact .of_eq rfl rfl
    | setScaleFactor v => cases (exec_setScaleFactor_idle hidle v).symm.trans h; exact .of_eq rfl rfl
    | writeAngle ch deg =>
      cases (exec_writeAngle_idle hidle ch deg).symm.trans h
      exact (s.acceptAngle_initFollowsLog ch deg).trans (State.serve_initFollowsLog _ _)
  · cases (exec_busy hbusy i).symm.trans h
    exact .of_eq rfl rfl

/-- Every step but a reset. -/
theorem step_initFollowsLog {s t : State} (hr : s.resetIn = false) (h : step s = .next t) : s.InitFollowsLog t := by
  rcases step_cases h with ⟨hreset, _⟩ | ⟨_, e, es, _, rfl⟩ | ⟨_, _, _, rfl⟩ | ⟨_, _, _, _, rfl⟩ |
    ⟨_, _, _, w, ws, i, _, _, hexec⟩ | ⟨_, _, _, w, ws, e, _, _, rfl⟩
  · simp [hr] at hreset
  · cases e <;> exact .of_eq rfl rfl
  · exact s.serve_initFollowsLog s.answers
  · exact .of_eq rfl rfl
  · exact State.InitFollowsLog.trans (t := { s with port := ws }) (.of_eq rfl rfl) (exec_initFollowsLog hexec)
  · exact .of_eq rfl rfl

/-- Reset clears INIT (70_reset_and_hazards.md R141). -/
theorem step_reset_init {s t : State} (hr : s.resetIn = true) (h : step s = .next t) : t.init = false := by
  cases (step_reset hr).symm.trans h
  exact s.abandonWrite.resetBlock_init

/-- An accepted `writeAngle` whose transport has not answered holds the first of its writes (10_state.md R30). -/
theorem exec_writeAngle_outstanding {s t : State} {ch : Nat} {deg : Int} {w : Byte × Byte} {ws : List (Byte × Byte)}
    (hidle : s.phase = .idle) (hanswers : s.answers = []) (hwrites : s.commandWrites ch deg = w :: ws)
    (h : exec (.writeAngle ch deg) s = .next t) : t.outstanding = some (toDevice w) := by
  obtain ⟨hbusy, hremaining, _, _, _, _, _, _, _, hkept⟩ := s.acceptAngle_spec ch deg
  have ht : t = { s.acceptAngle ch deg with answers := [] } := by
    cases (exec_writeAngle_idle hidle ch deg).symm.trans h
    rw [State.resume, hkept, hanswers, State.serve_nil]
  calc t.outstanding
    _ = (s.acceptAngle ch deg).outstanding := ht ▸ rfl
    _ = some (s.acceptAngle ch deg).currentWrite := State.outstanding_busy hbusy
    _ = some (toDevice w) := congrArg some (State.currentWrite_of_remaining (hremaining.trans hwrites))

/-- A step that raises INIT has logged the sixth initialization write with OK; it is no reset. -/
theorem step_raises_init {s t : State} (h : step s = .next t) (hlow : s.init = false) (hhigh : t.init = true) :
    ∃ before after, t.busLog = s.busLog ++ before ++ sixthInitWriteOk :: after := by
  cases hr : s.resetIn with
  | true => simp [step_reset_init hr h] at hhigh
  | false =>
    obtain ⟨new, hlog, hraise⟩ := (step_initFollowsLog hr h).raised
    have hmem : sixthInitWriteOk ∈ new := (hraise hhigh).resolve_left (by simp [hlow])
    obtain ⟨before, after, hnew⟩ := List.append_of_mem hmem
    exact ⟨before, after, by rw [hlog, hnew, List.append_assoc]⟩

/-- Settles O44: a step that is no reset only raises INIT, and the log then shows why; with no answer yet, the outstanding write
of a `writeAngle` is the first of its writes. -/
theorem initIsSetBySixWritesAndClearedByReset : Obligations.InitIsSetBySixWritesAndClearedByReset := by
  refine ⟨rfl, fun s t h => ⟨fun hinit hr => ?kept, fun hr => ?cleared, fun hlow hhigh => ?raised⟩,
    fun s t ch deg hidle hanswers h => ?firstWrite⟩
  case kept => exact (step_initFollowsLog hr h).kept hinit
  case cleared => exact step_reset_init hr h
  case raised => exact step_raises_init h hlow hhigh
  case firstWrite =>
    cases hinit : s.init <;>
      exact exec_writeAngle_outstanding hidle hanswers (by simp only [State.commandWrites, hinit]; rfl) h

/-- Settles O50, by the definition of the reset state. -/
theorem resetStateHoldsTheResetValues : Obligations.ResetStateHoldsTheResetValues :=
  ⟨rfl, rfl, rfl, rfl, rfl⟩

end Sys2Proof.Machine
end

section
/-! The block is blind to the chip: what an operation does to the rest of the state is the same for every content of the
target registers (20_memory.md R41). -/

namespace Sys2Proof.Machine

/-- From states that differ in the chip alone, the operation leads to states that differ in the chip alone. -/
def ChipBlind (f : State → State) : Prop := ∀ s m, ∃ m', f { s with chip := m } = { f s with chip := m' }

theorem ChipBlind.comp {f g : State → State} (hg : ChipBlind g) (hf : ChipBlind f) : ChipBlind fun s => g (f s) := by
  intro s m
  obtain ⟨m₁, hfm⟩ := hf s m
  obtain ⟨m₂, hgm⟩ := hg (f s) m₁
  exact ⟨m₂, (congrArg g hfm).trans hgm⟩

/-! ### The sequencer and a reset -/

theorem State.respond_chipBlind (st : Status) (info : Byte) : ChipBlind (·.respond st info) := fun _ m => ⟨m, rfl⟩

theorem State.advance_chipBlind : ChipBlind State.advance := by
  rintro ⟨_, _, _, _, _, seqStep⟩ m
  cases seqStep <;> exact ⟨m, rfl⟩

theorem State.transact_chipBlind (a : Answer) : ChipBlind (·.transact a) := by
  cases a with
  | ok => exact State.advance_chipBlind.comp (f := fun s => (s.logWrite .ok).deliver) fun _ _ => ⟨_, rfl⟩
  | err => exact fun _ _ => ⟨_, rfl⟩

theorem State.serve_chipBlind (as : List Answer) : ChipBlind (·.serve as) := by
  induction as with
  | nil => exact fun _ m => ⟨m, rfl⟩
  | cons a as ih =>
    rintro ⟨_, _, _, _, phase⟩ m
    cases phase with
    | idle => exact ⟨m, rfl⟩
    | busy => exact ih.comp (State.transact_chipBlind a) _ m

theorem State.resume_chipBlind : ChipBlind State.resume := fun s => State.serve_chipBlind s.answers s

theorem State.acceptAngle_chipBlind (ch : Nat) (deg : Int) : ChipBlind (·.acceptAngle ch deg) := by
  rintro ⟨_, _, _, init⟩ m
  cases init <;> exact ⟨m, rfl⟩

theorem State.applyReset_chipBlind : ChipBlind State.applyReset := by
  rintro ⟨_, _, _, _, phase⟩ m
  cases phase <;> exact ⟨_, rfl⟩

theorem State.applyChipEvent_chipBlind (e : ChipEvent) : ChipBlind (·.applyChipEvent e) := by
  cases e <;> exact fun _ _ => ⟨_, rfl⟩

/-! ### Commands and steps -/

/-- From `s`, and from `s` with `m` in the chip, `g` goes on to states that differ in the chip alone. -/
def ChipBlindAt (g : State → Host.Outcome State Fault Refusal) (s : State) (m : Memory) : Prop :=
  ∃ t m', g s = .next t ∧ g { s with chip := m } = .next { t with chip := m' }

/-- Where `g` is the same chip-blind operation whatever the chip holds. -/
theorem ChipBlind.chipBlindAt {f : State → State} (hf : ChipBlind f)
    {g : State → Host.Outcome State Fault Refusal} {s : State}
    (hg : ∀ m, g { s with chip := m } = .next (f { s with chip := m })) (m : Memory) : ChipBlindAt g s m := by
  obtain ⟨m', hm⟩ := hf s m
  exact ⟨f s, m', hg s.chip, (hg m).trans (congrArg _ hm)⟩

theorem State.storeMult_chipBlind (v : Int) : ChipBlind (·.storeMult v) := fun _ m => ⟨m, rfl⟩
theorem State.storeZoff_chipBlind (v : Int) : ChipBlind (·.storeZoff v) := fun _ m => ⟨m, rfl⟩
theorem State.storeScale_chipBlind (v : Int) : ChipBlind (·.storeScale v) := fun _ m => ⟨m, rfl⟩
theorem State.hold_chipBlind (w : CommandWord) : ChipBlind (·.hold w) := fun _ m => ⟨m, rfl⟩

theorem exec_chipBlindAt (i : Instr) (s : State) : ∀ m, ChipBlindAt (exec i) s m := by
  rcases s.phase_cases with hidle | hbusy
  · cases i with
    | setMultiplier v =>
      exact ((State.respond_chipBlind .ok 0).comp (State.storeMult_chipBlind v)).chipBlindAt
        fun m => exec_setMultiplier_idle (s := { s with chip := m }) hidle v
    | setZeroOffset v =>
      exact ((State.respond_chipBlind .ok 0).comp (State.storeZoff_chipBlind v)).chipBlindAt
        fun m => exec_setZeroOffset_idle (s := { s with chip := m }) hidle v
    | setScaleFactor v =>
      exact ((State.respond_chipBlind .ok 0).comp (State.storeScale_chipBlind v)).chipBlindAt
        fun m => exec_setScaleFactor_idle (s := { s with chip := m }) hidle v
    | writeAngle ch deg =>
      exact (State.resume_chipBlind.comp (State.acceptAngle_chipBlind ch deg)).chipBlindAt
        fun m => exec_writeAngle_idle (s := { s with chip := m }) hidle ch deg
  · exact (State.hold_chipBlind (encode i)).chipBlindAt fun m => exec_busy (s := { s with chip := m }) hbusy i

theorem runWord_chipBlindAt (w : CommandWord) (s : State) (m : Memory) : ChipBlindAt (runWord w) s m := by
  unfold runWord
  cases decode w with
  | ok i => exact exec_chipBlindAt i s m
  | error _ => exact (State.respond_chipBlind .illegalCommand 0).chipBlindAt (fun _ => rfl) m

/-- In which of its cases a step is does not depend on the chip, and every case is chip-blind. -/
theorem step_chipBlindAt (s : State) (m : Memory) : ChipBlindAt step s m := by
  cases hr : s.resetIn with
  | true => exact State.applyReset_chipBlind.chipBlindAt (fun m => step_reset (s := { s with chip := m }) hr) m
  | false =>
    cases he : s.chipEvents with
    | cons e es =>
      have htail : ChipBlind ({ · with chipEvents := es }) := fun _ m => ⟨m, rfl⟩
      exact ((State.applyChipEvent_chipBlind e).comp htail).chipBlindAt
        (fun m => step_chipEvent (s := { s with chip := m }) hr he) m
    | nil =>
      rcases s.phase_cases with hidle | hbusy
      · cases hq : s.port with
        | nil => exact ⟨s, m, step_idle hr he hidle hq, step_idle (s := { s with chip := m }) hr he hidle hq⟩
        | cons w ws =>
          obtain ⟨t, m', h, h'⟩ := runWord_chipBlindAt w { s with port := ws } m
          exact ⟨t, m', (step_word hr he hidle hq).trans h,
            (step_word (s := { s with chip := m }) hr he hidle hq).trans h'⟩
      · exact State.resume_chipBlind.chipBlindAt (fun m => step_busy (s := { s with chip := m }) hr he hbusy) m

/-- Settles O47: every operation a step can be is chip-blind. -/
theorem targetContentNeverReachesTheBlock : Obligations.TargetContentNeverReachesTheBlock := step_chipBlindAt

/-- Settles O26, by the numbers of the two registers of a channel. -/
theorem channelRegistersAreFourApart : Obligations.ChannelRegistersAreFourApart :=
  ⟨fun _ h => ⟨pulseL_toNat h, pulseH_toNat h, rfl⟩, by decide⟩

end Sys2Proof.Machine
end

section
/-! The decoder by the numbers of the four fields (30_encoding.md R66), and the opcode map as another reading of it
(R75). -/

namespace Sys2Proof

variable {w : CommandWord} {i : Instr} {r r' : OpcodeRow}

/-! ### The legal words -/

theorem setterOr_eq_ok_iff {ch : BitVec 4} {j : Instr} : setterOr ch j = .ok i ↔ ch = 0 ∧ i = j := by
  by_cases hch : ch = 0
  · simp [setterOr, hch, eq_comm (a := i)]
  · simp only [setterOr, hch, if_false, reduceCtorEq, false_and]

/-- The four legal outcomes of R66. -/
theorem decode_eq_ok_iff :
    decode w = .ok i ↔ Spec.rsv w = 0 ∧
      (Spec.op w = 1 ∧ Spec.ch w = 0 ∧ i = .setMultiplier (Spec.arg w) ∨
       Spec.op w = 2 ∧ Spec.ch w = 0 ∧ i = .setZeroOffset (Spec.arg w) ∨
       Spec.op w = 3 ∧ Spec.ch w = 0 ∧ i = .setScaleFactor (Spec.arg w) ∨
       Spec.op w = 4 ∧ i = .writeAngle (Spec.ch w + 1) (Spec.arg w)) := by
  simp only [decode, ne_eq, rsvField_eq, opField_eq, chField_toNat, sint32_argField, BitVec.reduceToNat]
  split_ifs with hrsv hmult hzoff hscale hangle
  · simp [hrsv, hmult, setterOr_eq_ok_iff, chField_eq]
  · simp [hrsv, hzoff, setterOr_eq_ok_iff, chField_eq]
  · simp [hrsv, hscale, setterOr_eq_ok_iff, chField_eq]
  · simp [hrsv, hangle, eq_comm (a := i)]
  · simp [hmult, hzoff, hscale, hangle]
  · simp [hrsv]

theorem decode_accepts_iff : (∃ i, decode w = .ok i) ↔ ¬ Spec.IsIllegal w := by
  simp only [decode_eq_ok_iff, exists_and_left, exists_or, exists_eq, and_true, Spec.IsIllegal]
  omega

theorem decode_refuses_iff : (∃ e, decode w = .error e) ↔ ¬ ∃ i, decode w = .ok i := by
  cases decode w <;> simp

/-- Settles O3: every legal case is one of `decode_eq_ok_iff`, and the refused words are those no case accepts. -/
theorem decodeFollowsTheFields : Obligations.DecodeFollowsTheFields := by
  intro w
  have hrefused : (∃ e, decode w = .error e) ↔ Spec.IsIllegal w := by
    rw [decode_refuses_iff, decode_accepts_iff, not_not]
  refine ⟨fun hrsv => ?reserved, fun hrsv hop hch => ?mult, fun hrsv hop hch => ?zoff, fun hrsv hop hch => ?scale,
    fun hrsv hop => ?angle, hrefused⟩
  case reserved => exact hrefused.mpr (.inr (.inl hrsv))
  case mult => exact decode_eq_ok_iff.mpr ⟨hrsv, .inl ⟨hop, hch, rfl⟩⟩
  case zoff => exact decode_eq_ok_iff.mpr ⟨hrsv, .inr (.inl ⟨hop, hch, rfl⟩)⟩
  case scale => exact decode_eq_ok_iff.mpr ⟨hrsv, .inr (.inr (.inl ⟨hop, hch, rfl⟩))⟩
  case angle => exact decode_eq_ok_iff.mpr ⟨hrsv, .inr (.inr (.inr ⟨hop, rfl⟩))⟩

/-! ### The rows of the opcode map -/

theorem rowSetMultiplier_matches : rowSetMultiplier.Matches w ↔ Spec.op w = 1 ∧ Spec.ch w = 0 ∧ Spec.rsv w = 0 := by
  rw [setter_row_matches w 1 _ rfl (by decide), opField_eq, chField_eq, rsvField_eq]
  rfl

theorem rowSetZeroOffset_matches : rowSetZeroOffset.Matches w ↔ Spec.op w = 2 ∧ Spec.ch w = 0 ∧ Spec.rsv w = 0 := by
  rw [setter_row_matches w 2 _ rfl (by decide), opField_eq, chField_eq, rsvField_eq]
  rfl

theorem rowSetScaleFactor_matches : rowSetScaleFactor.Matches w ↔ Spec.op w = 3 ∧ Spec.ch w = 0 ∧ Spec.rsv w = 0 := by
  rw [setter_row_matches w 3 _ rfl (by decide), opField_eq, chField_eq, rsvField_eq]
  rfl

theorem rowWriteAngle_matches : rowWriteAngle.Matches w ↔ Spec.op w = 4 ∧ Spec.rsv w = 0 := by
  rw [writeAngle_row_matches, opField_eq, rsvField_eq]
  rfl

theorem mem_opcodeMap_iff :
    r ∈ opcodeMap ↔ r = rowSetMultiplier ∨ r = rowSetZeroOffset ∨ r = rowSetScaleFactor ∨ r = rowWriteAngle := by
  simp only [opcodeMap, List.mem_cons, List.not_mem_nil, or_false]

theorem rowOf_mem_opcodeMap (i : Instr) : rowOf i ∈ opcodeMap := by
  cases i <;> simp [rowOf, mem_opcodeMap_iff]

/-- A legal word matches the row of the command it decodes to. -/
theorem rowOf_matches_of_decode (h : decode w = .ok i) : (rowOf i).Matches w := by
  obtain ⟨hrsv, ⟨hop, hch, rfl⟩ | ⟨hop, hch, rfl⟩ | ⟨hop, hch, rfl⟩ | ⟨hop, rfl⟩⟩ := decode_eq_ok_iff.mp h
  · exact rowSetMultiplier_matches.mpr ⟨hop, hch, hrsv⟩
  · exact rowSetZeroOffset_matches.mpr ⟨hop, hch, hrsv⟩
  · exact rowSetScaleFactor_matches.mpr ⟨hop, hch, hrsv⟩
  · exact rowWriteAngle_matches.mpr ⟨hop, hrsv⟩

/-- A word that matches a row decodes to a command of that row. -/
theorem decode_of_matches (hr : r ∈ opcodeMap) (h : r.Matches w) : ∃ i, decode w = .ok i ∧ rowOf i = r := by
  obtain rfl | rfl | rfl | rfl := mem_opcodeMap_iff.mp hr
  · obtain ⟨hop, hch, hrsv⟩ := rowSetMultiplier_matches.mp h
    exact ⟨_, decode_eq_ok_iff.mpr ⟨hrsv, .inl ⟨hop, hch, rfl⟩⟩, rfl⟩
  · obtain ⟨hop, hch, hrsv⟩ := rowSetZeroOffset_matches.mp h
    exact ⟨_, decode_eq_ok_iff.mpr ⟨hrsv, .inr (.inl ⟨hop, hch, rfl⟩)⟩, rfl⟩
  · obtain ⟨hop, hch, hrsv⟩ := rowSetScaleFactor_matches.mp h
    exact ⟨_, decode_eq_ok_iff.mpr ⟨hrsv, .inr (.inr (.inl ⟨hop, hch, rfl⟩))⟩, rfl⟩
  · obtain ⟨hop, hrsv⟩ := rowWriteAngle_matches.mp h
    exact ⟨_, decode_eq_ok_iff.mpr ⟨hrsv, .inr (.inr (.inr ⟨hop, rfl⟩))⟩, rfl⟩

/-- The word decodes to one command only, so it matches one row only. -/
theorem row_unique_of_matches (hr : r ∈ opcodeMap) (hr' : r' ∈ opcodeMap) (h : r.Matches w) (h' : r'.Matches w) :
    r = r' := by
  obtain ⟨i, hi, rfl⟩ := decode_of_matches hr h
  obtain ⟨j, hj, rfl⟩ := decode_of_matches hr' h'
  cases hi.symm.trans hj
  rfl

theorem opcodeMap_nodup : opcodeMap.Nodup := by decide

/-- Settles O4: matching a row and decoding to its command are the same, which leaves no overlap and no legal word
outside the rows. -/
theorem opcodeMapSelectsTheCommand : Obligations.OpcodeMapSelectsTheCommand := by
  refine ⟨rfl, fun w => ⟨fun r hr => ⟨decode_of_matches hr, ?selected⟩, fun i h => ?command, ?noOverlap,
    fun hnone => ?unmatched⟩, by decide, by decide, by decide⟩
  case selected =>
    rintro ⟨i, h, rfl⟩
    exact rowOf_matches_of_decode h
  case command =>
    obtain ⟨_, ⟨_, _, hi⟩ | ⟨_, _, hi⟩ | ⟨_, _, hi⟩ | ⟨_, hi⟩⟩ := decode_eq_ok_iff.mp h <;> simp [hi]
  case noOverlap =>
    exact opcodeMap_nodup.imp_of_mem fun hr hr' hne ⟨h, h'⟩ => hne (row_unique_of_matches hr hr' h h')
  case unmatched =>
    exact decode_refuses_iff.mpr fun ⟨i, h⟩ => hnone _ (rowOf_mem_opcodeMap i) (rowOf_matches_of_decode h)

end Sys2Proof
end

section
/-! The first writes of a `writeAngle` answered OK (42_angle.md R100): they are done, the next is outstanding. -/

namespace Sys2Proof.Machine

/-- A `writeAngle` taken by an IDLE block whose transport answers OK to the writes `before` and then gives the answers
`rest`: those writes are logged, the write `w` is outstanding in the state reached, and `rest` is served from there. -/
theorem exec_writeAngle_ok_prefix {s : State} {ch : Nat} {deg : Int} {before after : List (Byte × Byte)} {w : Byte × Byte}
    {rest : List Answer} (hidle : s.phase = .idle) (hanswers : s.answers = List.replicate before.length .ok ++ rest)
    (hwrites : s.commandWrites ch deg = before ++ w :: after) :
    ∃ t, exec (.writeAngle ch deg) s = .next (t.serve rest) ∧ t.phase = .busy ∧ t.remaining = w :: after ∧
      t.seqStep.isInit = !t.init ∧ s.Frame t ∧ t.responses = s.responses ∧
      t.busLog = s.busLog ++ records before .ok ∧ t.chip = s.chip.delivered before ∧ t.draws = s.draws := by
  obtain ⟨hbusy, hrem, hinit, _, hframe, hres, hlog, hchip, hdraws, hkept⟩ := s.acceptAngle_spec ch deg
  obtain ⟨t, hserve, hbusy', hrem', hinit', hframe', hres', hlog', hchip', hdraws'⟩ :=
    State.serve_ok_prefix hbusy hinit (hrem.trans hwrites)
  refine ⟨t, ?_, hbusy', hrem', hinit', hframe.trans hframe', hres'.trans hres, hlog ▸ hlog', hchip ▸ hchip',
    hdraws'.trans hdraws⟩
  rw [exec_writeAngle_idle hidle, State.resume, hkept, hanswers, hserve]

/-- In the channel phase, where at most two writes remain, INIT is set (41_init.md R93). -/
theorem State.init_of_remaining_le_two {s : State} (hinit : s.seqStep.isInit = !s.init) (h : s.remaining.length ≤ 2) :
    s.init = true := by
  have hchannel : ¬ s.seqStep.isInit = true := by
    rw [s.isInit_iff_remaining]
    omega
  simpa [hinit] using hchannel

/-- The first `writeAngle` with six OKs and no further answer: the initialization sequence is logged and INIT is set. -/
theorem exec_writeAngle_initializes {s : State} (hidle : s.phase = .idle) (hlow : s.init = false)
    (hanswers : s.answers = List.replicate 6 .ok) (ch : Nat) (deg : Int) :
    ∃ u, exec (.writeAngle ch deg) s = .next u ∧ u.busLog = s.busLog ++ records initSequence .ok ∧ u.init = true := by
  have hwrites : s.commandWrites ch deg = initSequence ++
      [(pulseL ch, lowByte (s.pulse (floorAngle deg))), (pulseH ch, highByte (s.pulse (floorAngle deg)))] := by
    simp [State.commandWrites, hlow]
  obtain ⟨t, hexec, _, hrem, hinit, _, _, hlog, _, _⟩ :=
    exec_writeAngle_ok_prefix (rest := []) hidle (by simpa [initSequence] using hanswers) hwrites
  have hhigh : t.init = true := State.init_of_remaining_le_two hinit (by simp [hrem])
  exact ⟨_, hexec, hlog, hhigh⟩

end Sys2Proof.Machine
end

section
/-! The three setters (40_trim.md): what any of them does to an IDLE block, and the clamps of the two trims. -/

namespace Sys2Proof.Machine

/-- Any setter on an IDLE block stores new values for the two trims and the scale, which do not depend on INIT, and answers
OK; INIT stays as it was and so does everything else (40_trim.md R83). -/
theorem exec_setter_idle {i : Instr} {s : State}
    (hsetter : ∃ v, i = .setMultiplier v ∨ i = .setZeroOffset v ∨ i = .setScaleFactor v) (hidle : s.phase = .idle) :
    ∃ mult zoff scale, ∀ b, exec i { s with init := b } =
      .next (State.respondOk { s with mult := mult, zoff := zoff, scale := scale, init := b }) := by
  obtain ⟨v, rfl | rfl | rfl⟩ := hsetter
  · exact ⟨BitVec.ofInt 8 (clampMultiplier v), s.zoff, s.scale,
      fun b => exec_setMultiplier_idle (s := { s with init := b }) hidle v⟩
  · exact ⟨s.mult, BitVec.ofInt 8 (clampZeroOffset v), s.scale,
      fun b => exec_setZeroOffset_idle (s := { s with init := b }) hidle v⟩
  · exact ⟨s.mult, s.zoff, BitVec.ofInt 32 v,
      fun b => exec_setScaleFactor_idle (s := { s with init := b }) hidle v⟩

/-- Settles O17: a setter changes the trims, the scale and the responses alone, and a `writeAngle` on the block it leaves
starts with the six initialization writes if INIT is 0. -/
theorem settersNeitherInitializeNorWrite : Obligations.SettersNeitherInitializeNorWrite := by
  intro i s hsetter hidle
  obtain ⟨mult, zoff, scale, hexec⟩ := exec_setter_idle hsetter hidle
  refine ⟨State.respondOk { s with mult := mult, zoff := zoff, scale := scale }, hexec, rfl, rfl,
    State.outstanding_idle rfl, rfl, rfl, fun hlow ch deg => ?initializes⟩
  case initializes =>
    refine exec_writeAngle_initializes rfl ?lowAfterSetter rfl ch deg
    case lowAfterSetter => exact hlow

/-! ### The clamps (40_trim.md R84) -/

theorem clamp_eq_self {v lo hi : Int} (hlo : lo ≤ v) (hhi : v ≤ hi) : clamp v lo hi = v := by
  rw [clamp, max_eq_left hlo, min_eq_left hhi]

/-- The clamped multiplier fits the eight bits of `MULT`. -/
theorem State.storeMult_toNat (s : State) (v : Int) : ((s.storeMult v).mult.toNat : Int) = clampMultiplier v := by
  obtain ⟨hlo, hhi⟩ := clampMultiplier_bounds v
  exact toNat_ofInt8 (by omega) (by omega)

/-- The clamped zero-offset fits the eight bits of `ZOFF`. -/
theorem State.storeZoff_toNat (s : State) (v : Int) : ((s.storeZoff v).zoff.toNat : Int) = clampZeroOffset v := by
  obtain ⟨hlo, hhi⟩ := clampZeroOffset_bounds v
  exact toNat_ofInt8 (by omega) (by omega)

/-- Settles O20: the bounds are those of the two clamps, and what is stored is the clamped value, as it fits eight bits. -/
theorem clampsStayInRangeAndFixIt : Obligations.ClampsStayInRangeAndFixIt := by
  intro v
  obtain ⟨hmultLo, hmultHi⟩ := clampMultiplier_bounds v
  obtain ⟨hzoffLo, hzoffHi⟩ := clampZeroOffset_bounds v
  refine ⟨⟨hmultLo, hmultHi, clamp_eq_self, rfl⟩, ⟨hzoffLo, hzoffHi, clamp_eq_self, rfl⟩, fun s hidle =>
    ⟨?storedMult, ?storedZoff⟩⟩
  case storedMult => exact ⟨_, exec_setMultiplier_idle hidle v, s.storeMult_toNat v⟩
  case storedZoff => exact ⟨_, exec_setZeroOffset_idle hidle v, s.storeZoff_toNat v⟩

end Sys2Proof.Machine
end

section
/-! A `writeAngle` whose answers end it: the first ERR, or OK to its last write (41_init.md R93 to R95, 42_angle.md R100,
R109). -/

namespace Sys2Proof.Machine

/-- The pulse depends on the trims and the scale, which no command with bus writes changes. -/
theorem State.Frame.pulse_eq {s t : State} (h : s.Frame t) (d : Int) : t.pulse d = s.pulse d := by
  simp only [State.pulse, h.scale, h.mult, h.zoff]

/-- The frame does not speak of the answers. -/
theorem State.Frame.with_answers {s t : State} (h : s.Frame t) (as : List Answer) :
    s.Frame { t with answers := as } :=
  ⟨h.mult, h.zoff, h.scale, h.port, h.resetIn, h.chipEvents⟩

/-- INIT is set exactly in the channel phase, where at most two writes remain (41_init.md R93). -/
theorem State.init_iff_remaining {s : State} (hinit : s.seqStep.isInit = !s.init) :
    s.init = true ↔ s.remaining.length ≤ 2 := by
  refine ⟨fun hhigh => ?channelPhase, State.init_of_remaining_le_two hinit⟩
  case channelPhase =>
    rw [← Nat.not_lt, ← s.isInit_iff_remaining, hinit, hhigh]
    decide

/-- An ERR to the outstanding write of a BUSY block: it ends the command, and the answers after it are kept. -/
theorem State.serve_err {s : State} (hbusy : s.phase = .busy) (rest : List Answer) :
    s.serve (.err :: rest) = { s.transact .err with answers := rest } := by
  rw [State.serve_cons_busy hbusy, State.serve_idle s.transact_err.1]

/-- A `writeAngle` whose writes `before` answer OK and whose next write `w` answers ERR: the writes after `w` are not issued,
its register is reported, and INIT is set exactly if `w` is one of the last two writes, those to the channel. -/
theorem exec_writeAngle_fails {s : State} {ch : Nat} {deg : Int} {before after : List (Byte × Byte)} {w : Byte × Byte}
    {rest : List Answer} (hidle : s.phase = .idle)
    (hanswers : s.answers = List.replicate before.length .ok ++ .err :: rest)
    (hwrites : s.commandWrites ch deg = before ++ w :: after) :
    ∃ t, exec (.writeAngle ch deg) s = .next t ∧ t.phase = .idle ∧ (t.init = true ↔ (w :: after).length ≤ 2) ∧
      t.answers = rest ∧ s.Frame t ∧ t.responses = s.responses ++ [responseWord .transportError w.1] ∧
      t.busLog = s.busLog ++ records before .ok ++ [⟨toDevice w, .err⟩] ∧
      t.chip = (s.chip.delivered before).write w.1.toNat (Config.freeByte s.draws) ∧ t.draws = s.draws + 1 := by
  obtain ⟨u, hexec, hbusy, hrem, hinit, hframe, hres, hlog, hchip, hdraws⟩ :=
    exec_writeAngle_ok_prefix hidle hanswers hwrites
  have hw : u.currentWrite = toDevice w := State.currentWrite_of_remaining hrem
  refine ⟨{ u.transact .err with answers := rest }, State.serve_err hbusy rest ▸ hexec, rfl, ?init, rfl,
    (hframe.trans (u.transact_frame .err)).with_answers rest, ?responses, ?busLog, ?chip, congrArg (· + 1) hdraws⟩
  case init => exact hrem ▸ State.init_iff_remaining hinit
  case responses => simp [State.transact, hres, hw, toDevice]
  case busLog => simp [State.transact, hlog, hw]
  case chip => simp [State.transact, hchip, hdraws, hw, toDevice]

/-- A `writeAngle` whose writes all answer OK: they are made in order, INIT is set and the command is answered OK. -/
theorem exec_writeAngle_succeeds {s : State} {ch : Nat} {deg : Int} {rest : List Answer} (hidle : s.phase = .idle)
    (hanswers : s.answers = List.replicate (s.commandWrites ch deg).length .ok ++ rest) :
    ∃ t, exec (.writeAngle ch deg) s = .next t ∧ t.phase = .idle ∧ t.init = true ∧ t.answers = rest ∧ s.Frame t ∧
      t.responses = s.responses ++ [responseWord .ok 0] ∧ t.busLog = s.busLog ++ records (s.commandWrites ch deg) .ok ∧
      t.chip = s.chip.delivered (s.commandWrites ch deg) ∧ t.draws = s.draws := by
  obtain ⟨before, w, hwrites⟩ : ∃ before w, s.commandWrites ch deg = before ++ [w] :=
    ⟨_, _, List.append_cons _ _ _⟩
  rw [hwrites, List.length_append, List.length_singleton, List.replicate_succ', List.append_assoc] at hanswers
  obtain ⟨u, hexec, hbusy, hrem, hinit, hframe, hres, hlog, hchip, hdraws⟩ :=
    exec_writeAngle_ok_prefix hidle hanswers hwrites
  obtain ⟨hidle', hinit', hres', hlog', hchip', hdraws'⟩ := State.transact_ok_last hrem
  have hserve : u.serve (.ok :: rest) = { u.transact .ok with answers := rest } := by
    rw [State.serve_cons_busy hbusy, State.serve_idle hidle']
  refine ⟨{ u.transact .ok with answers := rest }, hserve ▸ hexec, hidle', ?init, rfl,
    (hframe.trans (u.transact_frame .ok)).with_answers rest, hres ▸ hres', ?busLog, ?chip, hdraws'.trans hdraws⟩
  case init => exact hinit'.trans (State.init_of_remaining_le_two hinit (by simp [hrem]))
  case busLog => rw [hwrites, records_append, ← List.append_assoc, ← hlog, ← hlog']
  case chip => rw [hwrites, Memory.delivered_append, ← hchip, ← hchip']

end Sys2Proof.Machine
end

section
/-! The initialization sequence (41_init.md): what its last OK does, and a retry after it failed. -/

namespace Sys2Proof.Machine

/-- The writes of a `writeAngle` that has to initialize the chip first (41_init.md R90, R98). -/
theorem State.commandWrites_uninitialized {s : State} (hlow : s.init = false) (ch : Nat) (deg : Int) :
    s.commandWrites ch deg = initSequence ++
      [(pulseL ch, lowByte (s.pulse (max deg 1))), (pulseH ch, highByte (s.pulse (max deg 1)))] := by
  rw [State.commandWrites, hlow]
  rfl

/-- At `STEP` 6 an OK sets INIT and opens the channel phase (41_init.md R93). -/
theorem State.transact_ok_init6 {s : State} (hstep : s.seqStep = .init6) :
    s.transact .ok = State.enterChannel { (s.logWrite .ok).deliver with init := true } := by
  simp [State.transact, State.advance, hstep]

/-- Settles O45: the OK at `STEP` 6 opens the channel phase of the same command; no step but a reset clears INIT. -/
theorem sixthWriteSetsInit : Obligations.SixthWriteSetsInit := by
  refine ⟨fun s hbusy hstep hanswers hr he => ?raised, fun s t hhigh hr h => (step_initFollowsLog hr h).kept hhigh⟩
  case raised =>
    have hresume : s.resume =
        { State.enterChannel { (s.logWrite .ok).deliver with init := true } with answers := [] } := by
      rw [State.resume, hanswers, State.serve_cons_busy hbusy, State.serve_nil, State.transact_ok_init6 hstep]
    exact ⟨_, (step_busy hr he hbusy).trans (congrArg _ hresume), rfl, hbusy, State.outstanding_busy hbusy⟩

/-- Settles O34: a failing initialization write leaves INIT at 0 and the trims alone, so the next `writeAngle` has the whole
sequence to make, and with all answers OK it makes it. -/
theorem retryRunsTheWholeSequence : Obligations.RetryRunsTheWholeSequence := by
  intro s ch ch' deg deg' before after w rest hidle hlow hseq hanswers
  have hwrites := State.commandWrites_uninitialized hlow ch deg
  rw [hseq, List.append_assoc, List.cons_append] at hwrites
  obtain ⟨t, hexec, hidle', hinit, hkept, hframe, hres, hlog, _, _⟩ := exec_writeAngle_fails hidle hanswers hwrites
  have hlow' : t.init = false := by simpa using hinit
  have hretry := State.commandWrites_uninitialized hlow' ch' deg'
  rw [hframe.pulse_eq] at hretry
  obtain ⟨u, hexec', _, hhigh, _, _, hres', hlog', _, _⟩ :=
    exec_writeAngle_succeeds (ch := ch') (deg := deg') (rest := rest) hidle' (by rw [hretry]; exact hkept)
  rw [hretry] at hlog'
  refine ⟨t, u, hexec, hlow', hidle', hlog, hexec', hhigh, hlog', ?responses⟩
  case responses => rw [hres', hres, List.append_assoc, List.singleton_append]

end Sys2Proof.Machine
end

section
/-! The arithmetic of the pulse (42_angle.md R103 to R106): the floor, the high bit, the low byte, and what the two carry
together. -/

namespace Sys2Proof.Machine

theorem floorDiv_tenThousand (w : Int) : floorDiv w 10000 = w / 10000 := floorDiv_divisor w

/-- Settles O21: the divisor is positive, so the floor is the quotient whose remainder is not negative. -/
theorem divisionIsTheFloor : Obligations.DivisionIsTheFloor := by
  refine ⟨fun w q => ?floor, fun n => ?nonnegative, by decide, by decide⟩
  case floor =>
    rw [floorDiv_tenThousand]
    omega
  case nonnegative =>
    rw [floorDiv_tenThousand]
    rfl

theorem highByte_eq_one {p : Int} (h : p > 255) : highByte p = 1 := if_pos h

theorem highByte_eq_zero {p : Int} (h : p ≤ 255) : highByte p = 0 := if_neg (not_lt.mpr h)

/-- Settles O22: the two sides of the comparison. -/
theorem highBitIsASignedComparison : Obligations.HighBitIsASignedComparison :=
  fun _ => ⟨highByte_eq_one, highByte_eq_zero⟩

theorem lowByte_toNat (p : Int) : ((lowByte p).toNat : Int) = p % 256 := lowByte_toInt_emod p

/-- The low eight bits of a two's complement do not depend on its width. -/
theorem setWidth_ofInt {k n : Nat} (h : k ≤ n) (p : Int) : (BitVec.ofInt n p).setWidth k = BitVec.ofInt k p := by
  have hdvd : ((2 ^ k : Nat) : Int) ∣ (2 ^ n : Nat) := Int.natCast_dvd_natCast.mpr (pow_dvd_pow 2 h)
  have hpos (m : Nat) : ((2 ^ m : Nat) : Int) ≠ 0 := by positivity
  apply BitVec.eq_of_toNat_eq
  zify
  rw [BitVec.toNat_setWidth, Int.natCast_mod, BitVec.toNat_ofInt, BitVec.toNat_ofInt,
    Int.toNat_of_nonneg (Int.emod_nonneg _ (hpos n)), Int.toNat_of_nonneg (Int.emod_nonneg _ (hpos k)),
    Int.emod_emod_of_dvd p hdvd]

/-- Settles O23: `& 0xFF` is the remainder by 256, and the low eight bits of a wider two's complement are those of the
narrow one. -/
theorem lowByteIsThePulseModulo256 : Obligations.LowByteIsThePulseModulo256 := by
  refine fun p => ⟨lowByte_toNat p, fun n hn => ?masked, fun n hn => (setWidth_ofInt hn p).symm⟩
  case masked =>
    have hlow := lowByte_toNat p
    rw [Nat.and_two_pow_sub_one_eq_mod n 8]
    omega

/-! ### The two bytes together (42_angle.md R106) -/

theorem carried_eq (p : Int) : (carried p : Int) = 256 * (highByte p).toNat + p % 256 := by
  rw [carried, Nat.cast_add, Nat.cast_mul, lowByte_toNat]
  rfl

theorem carried_of_le {p : Int} (h : p ≤ 255) : (carried p : Int) = p % 256 := by
  rw [carried_eq, highByte_eq_zero h]
  exact zero_add _

theorem carried_of_gt {p : Int} (h : p > 255) : (carried p : Int) = 256 + p % 256 := by
  rw [carried_eq, highByte_eq_one h]
  rfl

/-- Nine bits hold the pulses of 0..511. -/
theorem carried_eq_self {p : Int} (h0 : 0 ≤ p) (h : p ≤ 511) : (carried p : Int) = p := by
  rcases le_or_gt p 255 with hlow | hhigh
  · rw [carried_of_le hlow]
    omega
  · rw [carried_of_gt hhigh]
    omega

end Sys2Proof.Machine
end

section
/-! The floored angle (42_angle.md R101): the command depends on its angle through it alone. -/

namespace Sys2Proof.Machine

theorem floorAngle_of_le {deg : Int} (h : deg ≤ 1) : floorAngle deg = 1 := max_eq_right h

theorem floorAngle_of_ge {deg : Int} (h : 1 ≤ deg) : floorAngle deg = deg := max_eq_left h

theorem State.acceptAngle_congr (s : State) (ch : Nat) {deg deg' : Int} (h : floorAngle deg = floorAngle deg') :
    s.acceptAngle ch deg = s.acceptAngle ch deg' := by
  rw [State.acceptAngle, State.acceptAngle, h]

theorem State.acceptAngle_latch_d (s : State) (ch : Nat) (deg : Int) :
    (s.acceptAngle ch deg).latch.d = floorAngle deg := by
  unfold State.acceptAngle
  cases s.init <;> rfl

/-- An initialized block latches the two bytes of the pulse as it accepts the command (42_angle.md R100, R104, R105). -/
theorem State.acceptAngle_latch_bytes {s : State} (h : s.init = true) (ch : Nat) (deg : Int) :
    (s.acceptAngle ch deg).latch.lo = lowByte (s.pulse (floorAngle deg)) ∧
    (s.acceptAngle ch deg).latch.hb = highByte (s.pulse (floorAngle deg)) := by
  rw [State.acceptAngle, h]
  exact ⟨rfl, rfl⟩

/-- With no answer yet, an accepted `writeAngle` goes no further. -/
theorem exec_writeAngle_unanswered {s : State} (hidle : s.phase = .idle) (hanswers : s.answers = []) (ch : Nat)
    (deg : Int) : exec (.writeAngle ch deg) s = .next { s.acceptAngle ch deg with answers := [] } := by
  obtain ⟨_, _, _, _, _, _, _, _, _, hkept⟩ := s.acceptAngle_spec ch deg
  rw [exec_writeAngle_idle hidle, State.resume, hkept, hanswers, State.serve_nil]

/-- Settles O33: an angle of at most 1 has the floored angle 1, an angle of at least 1 is its own. -/
theorem anglesBelowOneActAsOne : Obligations.AnglesBelowOneActAsOne := by
  refine fun s ch deg hidle => ⟨fun hdeg => ?below, fun hdeg hanswers => ?above⟩
  case below =>
    have hfloor : floorAngle deg = floorAngle 1 := by rw [floorAngle_of_le hdeg, floorAngle_of_le le_rfl]
    rw [exec_writeAngle_idle hidle, exec_writeAngle_idle hidle, s.acceptAngle_congr ch hfloor]
  case above =>
    have hfloor := floorAngle_of_ge hdeg
    refine ⟨_, exec_writeAngle_unanswered hidle hanswers ch deg, ?angle, fun hinit => ?bytes⟩
    case angle => exact (s.acceptAngle_latch_d ch deg).trans hfloor
    case bytes =>
      have hbytes := State.acceptAngle_latch_bytes hinit ch deg
      rwa [hfloor] at hbytes

end Sys2Proof.Machine
end

section
/-! What a `writeAngle` makes of its writes and of the transport's answers (42_angle.md R100, R106, R108, R110). -/

namespace Sys2Proof.Machine

/-- The writes of a `writeAngle` on an initialized block: the two to the channel (42_angle.md R107). -/
theorem State.commandWrites_initialized {s : State} (hhigh : s.init = true) (ch : Nat) (deg : Int) :
    s.commandWrites ch deg =
      [(pulseL ch, lowByte (s.pulse (max deg 1))), (pulseH ch, highByte (s.pulse (max deg 1)))] := by
  rw [State.commandWrites, hhigh]
  rfl

/-- Settles O37: the two channel writes are the last of those made, and their bytes are the pulse's. -/
theorem channelRegistersCarryThePulse : Obligations.ChannelRegistersCarryThePulse := by
  intro s ch deg rest hidle hanswers
  obtain ⟨t, hexec, _, _, _, _, hres, hlog, _, _⟩ := exec_writeAngle_succeeds hidle hanswers
  refine ⟨t, lowByte (s.pulse (max deg 1)), highByte (s.pulse (max deg 1)),
    records (if s.init then [] else initSequence) .ok, hexec, hres, ?writes, ?carried⟩
  case writes =>
    rw [hlog, State.commandWrites, records_append, ← List.append_assoc]
    rfl
  case carried =>
    rintro p E rfl rfl
    exact ⟨carried_eq_self, fun h => carried_of_gt (by omega), fun h => carried_of_le (by omega)⟩

/-- The command has six writes more where it has to initialize the chip. -/
theorem State.commandWrites_length (s : State) (ch : Nat) (deg : Int) :
    (s.commandWrites ch deg).length = if s.init then 2 else 8 := by
  rw [State.commandWrites]
  cases s.init <;> rfl

theorem records_length (ws : List (Byte × Byte)) (r : TxResult) : (records ws r).length = ws.length :=
  List.length_map ..

/-- The answers given to the writes of a command, whatever they are: OK to every write; OK to some of them and ERR to the
next; or OK to some of them and no more. -/
theorem answers_cases (ws : List (Byte × Byte)) (as : List Answer) :
    (∃ rest, as = List.replicate ws.length .ok ++ rest) ∨
    ∃ before w after, ws = before ++ w :: after ∧
      ((∃ rest, as = List.replicate before.length .ok ++ .err :: rest) ∨ as = List.replicate before.length .ok) := by
  induction ws generalizing as with
  | nil => exact .inl ⟨as, rfl⟩
  | cons v ws ih =>
    match as with
    | [] => exact .inr ⟨[], v, ws, rfl, .inr rfl⟩
    | .err :: as => exact .inr ⟨[], v, ws, rfl, .inl ⟨as, rfl⟩⟩
    | .ok :: as =>
      obtain ⟨rest, rfl⟩ | ⟨before, w, after, rfl, ⟨rest, rfl⟩ | rfl⟩ := ih as
      · exact .inl ⟨rest, rfl⟩
      · exact .inr ⟨v :: before, w, after, rfl, .inl ⟨rest, rfl⟩⟩
      · exact .inr ⟨v :: before, w, after, rfl, .inr rfl⟩

/-- A `writeAngle` whose writes `before` answer OK and whose next write gets no answer: it waits for it, and has given no
response. -/
theorem exec_writeAngle_waits {s : State} {ch : Nat} {deg : Int} {before after : List (Byte × Byte)} {w : Byte × Byte}
    (hidle : s.phase = .idle) (hanswers : s.answers = List.replicate before.length .ok)
    (hwrites : s.commandWrites ch deg = before ++ w :: after) :
    ∃ t, exec (.writeAngle ch deg) s = .next t ∧ (t.init = true ↔ (w :: after).length ≤ 2) ∧ t.answers = [] ∧
      t.responses = s.responses ∧ t.busLog = s.busLog ++ records before .ok := by
  obtain ⟨u, hexec, _, hrem, hinit, _, hres, hlog, _, _⟩ :=
    exec_writeAngle_ok_prefix (rest := []) hidle (hanswers.trans (List.append_nil _).symm) hwrites
  exact ⟨_, hexec, hrem ▸ State.init_iff_remaining hinit, rfl, hres, hlog⟩

/-! ### The visible outcome as a function of the writes to make and the answers -/

/-- From `s` to `t` the log entries `new` and the responses `resp` are added, and in `t` INIT is
`initAfter` and the answers left are `unused`. -/
structure State.Gives (s t : State) (new : List BusRecord) (resp : List ResponseWord) (initAfter : Bool)
    (unused : List Answer) : Prop where
  busLog : t.busLog = s.busLog ++ new
  responses : t.responses = s.responses ++ resp
  init : t.init = initAfter
  answers : t.answers = unused

/-- How a command that has the writes `ws` to make can end: OK with all of them made; TRANSPORT_ERROR with the last one made
answered ERR; or waiting for one of them with no response given. -/
inductive WritesEnd (ws : List (Byte × Byte)) : List BusRecord → List ResponseWord → Prop where
  | succeeded : WritesEnd ws (records ws .ok) [responseWord .ok 0]
  | failed {before after : List (Byte × Byte)} {w : Byte × Byte} (h : ws = before ++ w :: after) :
      WritesEnd ws (records before .ok ++ [⟨toDevice w, .err⟩]) [responseWord .transportError w.1]
  | waiting {before after : List (Byte × Byte)} {w : Byte × Byte} (h : ws = before ++ w :: after) :
      WritesEnd ws (records before .ok) []

/-- The writes to make and the answers to come decide what every IDLE block makes of a `writeAngle`. -/
theorem exec_writeAngle_gives (ws : List (Byte × Byte)) (as : List Answer) :
    ∃ new resp initAfter unused, WritesEnd ws new resp ∧ ∀ {s : State} {ch : Nat} {deg : Int}, s.phase = .idle →
      s.commandWrites ch deg = ws → s.answers = as →
      ∃ t, exec (.writeAngle ch deg) s = .next t ∧ s.Gives t new resp initAfter unused := by
  obtain ⟨rest, has⟩ | ⟨before, w, after, hws, ⟨rest, has⟩ | has⟩ := answers_cases ws as
  · refine ⟨_, _, true, rest, .succeeded, fun hidle hwrites hanswers => ?_⟩
    obtain ⟨t, hexec, _, hinit, hkept, _, hres, hlog, _, _⟩ :=
      exec_writeAngle_succeeds hidle (hanswers.trans (hwrites ▸ has))
    exact ⟨t, hexec, hwrites ▸ hlog, hres, hinit, hkept⟩
  · refine ⟨_, _, decide ((w :: after).length ≤ 2), rest, .failed hws, fun hidle hwrites hanswers => ?_⟩
    obtain ⟨t, hexec, _, hinit, hkept, _, hres, hlog, _, _⟩ :=
      exec_writeAngle_fails hidle (hanswers.trans has) (hwrites.trans hws)
    exact ⟨t, hexec, hlog.trans (List.append_assoc ..), hres, Bool.eq_iff_iff.mpr (by simpa using hinit), hkept⟩
  · refine ⟨_, _, decide ((w :: after).length ≤ 2), [], .waiting hws, fun hidle hwrites hanswers => ?_⟩
    obtain ⟨t, hexec, hinit, hkept, hres, hlog⟩ :=
      exec_writeAngle_waits hidle (hanswers.trans has) (hwrites.trans hws)
    exact ⟨t, hexec, hlog, hres.trans (List.append_nil _).symm, Bool.eq_iff_iff.mpr (by simpa using hinit), hkept⟩

/-- The writes to make depend on MULT, ZOFF, SCALE and INIT alone. -/
theorem State.commandWrites_congr {s s' : State} (hmult : s.mult = s'.mult) (hzoff : s.zoff = s'.zoff)
    (hscale : s.scale = s'.scale) (hinit : s.init = s'.init) (ch : Nat) (deg : Int) :
    s.commandWrites ch deg = s'.commandWrites ch deg := by
  simp only [State.commandWrites, State.pulse, hmult, hzoff, hscale, hinit]

/-- Settles O42: the two states have the same writes to make and the same answers to come; and a success on an initialized
block leaves the same writes to make. -/
theorem writeAngleDependsOnNothingElse : Obligations.WriteAngleDependsOnNothingElse := by
  refine ⟨fun s s' t t' ch deg hidle hidle' hmult hzoff hscale hinit hanswers h h' => ?sameOutcome,
    fun s ch deg rest hidle hhigh hanswers ws hws => ?twice⟩
  case sameOutcome =>
    have hwrites := State.commandWrites_congr hmult hzoff hscale hinit ch deg
    obtain ⟨new, resp, _, _, _, hgives⟩ := exec_writeAngle_gives (s.commandWrites ch deg) s.answers
    obtain ⟨u, hexec, hu⟩ := hgives hidle rfl rfl
    obtain ⟨u', hexec', hu'⟩ := hgives hidle' hwrites.symm hanswers.symm
    cases hexec.symm.trans h
    cases hexec'.symm.trans h'
    exact ⟨new, resp, hu.busLog, hu'.busLog, hu.responses, hu'.responses, hu.init.trans hu'.init.symm,
      hu.answers.trans hu'.answers.symm⟩
  case twice =>
    have hwrites : s.commandWrites ch deg = ws := (State.commandWrites_initialized hhigh ch deg).trans hws.symm
    obtain ⟨t, hexec, hidle', hhigh', hkept, hframe, _, hlog, _, _⟩ :=
      exec_writeAngle_succeeds (ch := ch) (deg := deg) (rest := .ok :: .ok :: rest) hidle
        (by rw [hwrites, hws]; exact hanswers)
    have hwrites' : t.commandWrites ch deg = ws :=
      (State.commandWrites_congr hframe.mult hframe.zoff hframe.scale (hhigh'.trans hhigh.symm) ch deg).trans hwrites
    obtain ⟨u, hexec', _, _, _, _, _, hlog', _, _⟩ :=
      exec_writeAngle_succeeds (ch := ch) (deg := deg) (rest := rest) hidle' (by rw [hwrites', hws]; exact hkept)
    exact ⟨t, u, hexec, hexec', hwrites ▸ hlog, hwrites' ▸ hlog'⟩

/-! ### How many writes (42_angle.md R108) -/

theorem responseWord_ok_ne_transportError (reg : Byte) : responseWord .ok 0 ≠ responseWord .transportError reg := by
  intro h
  have hstatus := congrArg statusField h
  rw [statusField_responseWord, statusField_responseWord] at hstatus
  simp [Status.code] at hstatus

/-- Only a command that made all its writes answers OK. -/
theorem WritesEnd.of_ok {ws : List (Byte × Byte)} {new : List BusRecord}
    (h : WritesEnd ws new [responseWord .ok 0]) : new = records ws .ok := by
  generalize hresp : [responseWord .ok 0] = resp at h
  cases h with
  | succeeded => rfl
  | failed _ => exact absurd (List.singleton_inj.mp hresp) (responseWord_ok_ne_transportError _)
  | waiting _ => cases hresp

/-- A command that answers TRANSPORT_ERROR has made a write, and none but its own. -/
theorem WritesEnd.of_transportError {ws : List (Byte × Byte)} {new : List BusRecord} {reg : Byte}
    (h : WritesEnd ws new [responseWord .transportError reg]) : 1 ≤ new.length ∧ new.length ≤ ws.length := by
  generalize hresp : [responseWord .transportError reg] = resp at h
  cases h with
  | succeeded => exact absurd (List.singleton_inj.mp hresp).symm (responseWord_ok_ne_transportError _)
  | failed hws => simp [hws, records_length]
  | waiting _ => cases hresp

/-- Settles O39: an OK comes after all the writes of the command, of which there are two or eight, and a TRANSPORT_ERROR
after one of them. -/
theorem writeAngleMakesEightOrTwoWrites : Obligations.WriteAngleMakesEightOrTwoWrites := by
  intro s t ch deg hidle h
  obtain ⟨new, resp, _, _, hend, hgives⟩ := exec_writeAngle_gives (s.commandWrites ch deg) s.answers
  obtain ⟨u, hexec, hu⟩ := hgives hidle rfl rfl
  cases hexec.symm.trans h
  have hlength := s.commandWrites_length ch deg
  refine ⟨new, hu.busLog, fun hok => ?succeeded, fun reg herr => ?failed⟩
  case succeeded =>
    obtain rfl : resp = _ := List.append_cancel_left (hu.responses.symm.trans hok)
    have hnew := hend.of_ok
    have hcount : new.length = if s.init then 2 else 8 := by rw [hnew, records_length, hlength]
    exact ⟨_, _, hnew, fun hinit => by simpa [hinit] using hcount, fun hinit => by simpa [hinit] using hcount⟩
  case failed =>
    obtain rfl : resp = _ := List.append_cancel_left (hu.responses.symm.trans herr)
    obtain ⟨hone, hmost⟩ := hend.of_transportError
    refine ⟨hone, hmost.trans ?_⟩
    rw [hlength]
    split <;> omega

end Sys2Proof.Machine
end

section
/-! What a legal command may answer (60_exceptions.md R124): OK, or TRANSPORT_ERROR from a write that answered ERR. -/

namespace Sys2Proof.Machine

/-- A change of the chip leaves the phase and the responses (70_reset_and_hazards.md R148). -/
theorem State.applyChipEvent_unanswered (s : State) (e : ChipEvent) :
    (s.applyChipEvent e).responses = s.responses ∧ (s.applyChipEvent e).phase = s.phase := by
  cases e <;> exact ⟨rfl, rfl⟩

/-- Settles O19: the answers to the writes of a `writeAngle` are all OK, or there is a first ERR, or they run out before
either; a BUSY block goes on with the same three outcomes, and a change of the chip answers nothing. -/
theorem legalCommandsAnswerOnlyTheirStatuses : Obligations.LegalCommandsAnswerOnlyTheirStatuses := by
  refine ⟨fun v s hidle i hi => ?setter, fun ch deg s t hidle h => ?taken, fun s t hbusy hr h => ?later⟩
  case setter =>
    have hsetter : ∃ v, i = .setMultiplier v ∨ i = .setZeroOffset v ∨ i = .setScaleFactor v := ⟨v, by simpa using hi⟩
    obtain ⟨mult, zoff, scale, hexec⟩ := exec_setter_idle hsetter hidle
    exact ⟨_, hexec s.init, rfl⟩
  case taken =>
    obtain ⟨rest, hanswers⟩ | ⟨before, w, after, hwrites, ⟨rest, hanswers⟩ | hanswers⟩ :=
      answers_cases (s.commandWrites ch deg) s.answers
    · obtain ⟨u, hexec, hidle', _, _, _, hres, hlog, _, _⟩ := exec_writeAngle_succeeds hidle hanswers
      cases hexec.symm.trans h
      exact .inr ⟨hidle', .inl ⟨hres, hlog⟩⟩
    · obtain ⟨u, hexec, hidle', _, _, _, hres, hlog, _, _⟩ := exec_writeAngle_fails hidle hanswers hwrites
      cases hexec.symm.trans h
      exact .inr ⟨hidle', .inr ⟨before, after, w, hwrites, hres, hlog⟩⟩
    · obtain ⟨u, hexec, hbusy, _, _, _, hres, _, _, _⟩ :=
        exec_writeAngle_ok_prefix (rest := []) hidle (hanswers.trans (List.append_nil _).symm) hwrites
      cases hexec.symm.trans h
      exact .inl ⟨hres, hbusy⟩
  case later =>
    cases hevents : s.chipEvents with
    | cons e es =>
      cases (step_chipEvent hr hevents).symm.trans h
      obtain ⟨hres, hphase⟩ := State.applyChipEvent_unanswered { s with chipEvents := es } e
      exact .inl ⟨hres, hphase.trans hbusy⟩
    | nil =>
      cases (step_busy hr hevents hbusy).symm.trans h
      obtain ⟨new, hok, ⟨hwaits, hres, _⟩ | ⟨hidle, hres, hlog⟩ | ⟨w, hidle, hres, hlog⟩⟩ :=
        State.serve_cases hbusy s.answers
      · exact .inl ⟨hres, hwaits⟩
      · exact .inr ⟨hidle, new, hok, .inl ⟨hres, hlog⟩⟩
      · exact .inr ⟨hidle, new, hok, .inr ⟨w, hres, hlog⟩⟩

end Sys2Proof.Machine
end

section
/-! Encoder and decoder are inverse to each other on the well-formed commands (30_encoding.md R60 to R68), and what the
assembler accepts is a well-formed command (R72 to R74). -/

namespace Sys2Proof

/-! ### The fields of the encoder's words, as numbers -/

theorem Spec.op_commandWord (op ch : BitVec 4) (v : Int) : Spec.op (commandWord op ch v) = op.toNat := by
  rw [← opField_toNat, opField_commandWord]

theorem Spec.ch_commandWord (op ch : BitVec 4) (v : Int) : Spec.ch (commandWord op ch v) = ch.toNat := by
  rw [← chField_toNat, chField_commandWord]

theorem Spec.rsv_commandWord (op ch : BitVec 4) (v : Int) : Spec.rsv (commandWord op ch v) = 0 := by
  rw [← rsvField_toNat, rsvField_commandWord]
  rfl

theorem Spec.arg_commandWord (op ch : BitVec 4) {v : Int} (h : FitsInt32 v) : Spec.arg (commandWord op ch v) = v := by
  rw [← sint32_argField, argField_commandWord, Machine.sint32_ofInt h]

/-- The channel index fits the four bits of `CH` as the index less one (30_encoding.md R62). -/
theorem channelField_toNat {ch : Nat} (h : IsChannel ch) : (BitVec.ofNat 4 (ch - 1)).toNat + 1 = ch := by
  rw [BitVec.toNat_ofNat]
  omega

/-- Settles O1: the fields of the encoded word are those of the command's row, and its argument survives 32 bits. -/
theorem decodeOfEncodeIsTheCommand : Obligations.DecodeOfEncodeIsTheCommand := by
  intro i hwf
  refine decode_eq_ok_iff.mpr ?_
  cases i with
  | setMultiplier v =>
    refine ⟨Spec.rsv_commandWord .., .inl ⟨Spec.op_commandWord .., Spec.ch_commandWord .., ?_⟩⟩
    rw [encode, Spec.arg_commandWord _ _ hwf]
  | setZeroOffset v =>
    refine ⟨Spec.rsv_commandWord .., .inr (.inl ⟨Spec.op_commandWord .., Spec.ch_commandWord .., ?_⟩)⟩
    rw [encode, Spec.arg_commandWord _ _ hwf]
  | setScaleFactor v =>
    refine ⟨Spec.rsv_commandWord .., .inr (.inr (.inl ⟨Spec.op_commandWord .., Spec.ch_commandWord .., ?_⟩))⟩
    rw [encode, Spec.arg_commandWord _ _ hwf]
  | writeAngle ch deg =>
    obtain ⟨hch, hdeg⟩ := hwf
    refine ⟨Spec.rsv_commandWord .., .inr (.inr (.inr ⟨Spec.op_commandWord .., ?_⟩))⟩
    rw [encode, Spec.arg_commandWord _ _ hdeg, Spec.ch_commandWord, channelField_toNat hch]

/-! ### From the word to the command and back -/

theorem Spec.arg_fits (w : CommandWord) : FitsInt32 (Spec.arg w) := by
  unfold FitsInt32 Spec.arg
  split <;> omega

theorem Spec.ch_isChannel (w : CommandWord) : IsChannel (Spec.ch w + 1) := by
  unfold IsChannel Spec.ch
  omega

/-- A word without reserved bits is put together from its own fields. -/
theorem commandWord_of_fields {w : CommandWord} {op ch : BitVec 4} (hrsv : Spec.rsv w = 0) (hop : Spec.op w = op.toNat)
    (hch : Spec.ch w = ch.toNat) : commandWord op ch (Spec.arg w) = w := by
  refine word_ext ?op ?ch ?rsv ?arg
  case op => rw [opField_commandWord, (opField_eq w op).mpr hop]
  case ch => rw [chField_commandWord, (chField_eq w ch).mpr hch]
  case rsv => rw [rsvField_commandWord, (rsvField_eq w 0).mpr hrsv]
  case arg => rw [argField_commandWord, ← sint32_argField, sint32, BitVec.ofInt_toInt]

theorem decode_wellFormed {w : CommandWord} {i : Instr} (h : decode w = .ok i) : i.WellFormed := by
  obtain ⟨_, ⟨_, _, rfl⟩ | ⟨_, _, rfl⟩ | ⟨_, _, rfl⟩ | ⟨_, rfl⟩⟩ := decode_eq_ok_iff.mp h
  · exact Spec.arg_fits w
  · exact Spec.arg_fits w
  · exact Spec.arg_fits w
  · exact ⟨Spec.ch_isChannel w, Spec.arg_fits w⟩

theorem encode_of_decode {w : CommandWord} {i : Instr} (h : decode w = .ok i) : encode i = w := by
  obtain ⟨hrsv, ⟨hop, hch, rfl⟩ | ⟨hop, hch, rfl⟩ | ⟨hop, hch, rfl⟩ | ⟨hop, rfl⟩⟩ := decode_eq_ok_iff.mp h
  · exact commandWord_of_fields hrsv hop hch
  · exact commandWord_of_fields hrsv hop hch
  · exact commandWord_of_fields hrsv hop hch
  · refine commandWord_of_fields hrsv hop ?channel
    case channel =>
      have := channelField_toNat (Spec.ch_isChannel w)
      omega

/-- Settles O2: a legal word has no reserved bits and is put together from the fields its command is read from. -/
theorem encodeOfDecodeIsTheWord : Obligations.EncodeOfDecodeIsTheWord :=
  fun _ _ h => ⟨decode_wellFormed h, encode_of_decode h⟩

/-- Settles O5, by running the decoder on the words of the vectors. -/
theorem sampleWordsDecode : Obligations.SampleWordsDecode := by
  unfold Obligations.SampleWordsDecode
  decide

end Sys2Proof

namespace Sys2Proof.Machine

/-! ### The assembler -/

theorem checkInt32_fits {v w : Int} (h : checkInt32 v = some w) : FitsInt32 w := by
  obtain ⟨hv, ⟨⟩⟩ := Option.ite_none_right_eq_some.mp h
  exact hv

theorem sint32_fits (a : Word32) : FitsInt32 (sint32 a) := by
  have := a.toInt_lt
  have := a.le_toInt
  unfold FitsInt32 sint32
  omega

/-- An immediate is read as an argument of 32 bits or refused (30_encoding.md R73). -/
theorem parseImm_fits {cs : List Char} {v : Int} (h : parseImm cs = some v) : FitsInt32 v := by
  unfold parseImm at h
  split at h <;> split at h
  · obtain ⟨_, ⟨⟩⟩ := Option.ite_none_right_eq_some.mp h
    exact sint32_fits _
  · cases h
  · exact checkInt32_fits h
  · cases h
  · exact checkInt32_fits h
  · cases h

/-- A channel is read as an index of 1..16 or refused (30_encoding.md R73). -/
theorem parseChannel_isChannel {cs : List Char} {ch : Nat} (h : parseChannel cs = some ch) : IsChannel ch := by
  unfold parseChannel at h
  split at h
  · obtain ⟨hch, ⟨⟩⟩ := Option.ite_none_right_eq_some.mp h
    exact hch
  · cases h

/-- The one operand of a setter's line. -/
theorem parseImm_map_wellFormed {mk : Int → Instr} (hmk : ∀ v, FitsInt32 v → (mk v).WellFormed) {cs : List Char}
    {i : Instr} (h : (parseImm cs).map mk = some i) : i.WellFormed := by
  obtain ⟨v, hv, rfl⟩ := Option.map_eq_some_iff.mp h
  exact hmk v (parseImm_fits hv)

theorem parseLine_wellFormed {line : List Char} {i : Instr} (h : parseLine line = some i) : i.WellFormed := by
  unfold parseLine at h
  dsimp only at h
  split_ifs at h
  · split at h
    · exact parseImm_map_wellFormed (fun _ hv => hv) h
    · cases h
  · split at h
    · exact parseImm_map_wellFormed (fun _ hv => hv) h
    · cases h
  · split at h
    · exact parseImm_map_wellFormed (fun _ hv => hv) h
    · cases h
  · split at h
    · split at h
      · rename_i hch himm
        cases h
        exact ⟨parseChannel_isChannel hch, parseImm_fits himm⟩
      · cases h
    · cases h

/-- Settles O6: the line parses to a well-formed command, and the word is that command's encoding. -/
theorem assembledLineIsOneLegalWord : Obligations.AssembledLineIsOneLegalWord := by
  intro line w h
  obtain ⟨i, hparse, rfl⟩ := Option.map_eq_some_iff.mp h
  have hwf := parseLine_wellFormed hparse
  exact ⟨i, hwf, hparse, decodeOfEncodeIsTheCommand i hwf⟩

/-- Settles O7, by running the assembler on the lines. -/
theorem sampleLinesAssemble : Obligations.SampleLinesAssemble := by
  unfold Obligations.SampleLinesAssemble
  decide

end Sys2Proof.Machine
end

section
/-! The invariant of the machine: every operation of the block keeps it, so every step does. -/

namespace Sys2Proof.Machine

/-! ### What a command in progress leaves alone -/

/-- Serving answers leaves the trims, the scale, the port and the inputs. -/
theorem State.serve_frame (s : State) (as : List Answer) : s.Frame (s.serve as) :=
  State.serve_induct (P := s.Frame) (fun _ as h => h.with_answers as) (fun x a _ h => h.trans (x.transact_frame a)) as s
    (.refl s)

theorem State.Frame.trimsInRange {s t : State} (h : s.Frame t) (hs : s.TrimsInRange) : t.TrimsInRange := by
  rwa [State.TrimsInRange, h.mult, h.zoff]

theorem State.storeMult_trimsInRange {s : State} (h : s.TrimsInRange) (v : Int) : (s.storeMult v).TrimsInRange := by
  have hstored := s.storeMult_toNat v
  have hbounds := clampMultiplier_bounds v
  obtain ⟨_, _, hzoff⟩ := h
  exact ⟨by omega, by omega, hzoff⟩

theorem State.storeZoff_trimsInRange {s : State} (h : s.TrimsInRange) (v : Int) : (s.storeZoff v).TrimsInRange := by
  have hstored := s.storeZoff_toNat v
  have hbounds := clampZeroOffset_bounds v
  obtain ⟨hlo, hhi, _⟩ := h
  exact ⟨hlo, hhi, by omega, by omega⟩

theorem State.resetBlock_trimsInRange (s : State) : s.resetBlock.TrimsInRange :=
  (by decide : State.reset.TrimsInRange)

/-- A command keeps the trims in range (10_state.md R25). -/
theorem exec_trimsInRange {s t : State} {i : Instr} (hs : s.TrimsInRange) (h : exec i s = .next t) :
    t.TrimsInRange := by
  rcases s.phase_cases with hidle | hbusy
  · cases i with
    | setMultiplier v => cases (exec_setMultiplier_idle hidle v).symm.trans h; exact s.storeMult_trimsInRange hs v
    | setZeroOffset v => cases (exec_setZeroOffset_idle hidle v).symm.trans h; exact s.storeZoff_trimsInRange hs v
    | setScaleFactor v => cases (exec_setScaleFactor_idle hidle v).symm.trans h; exact hs
    | writeAngle ch deg =>
      cases (exec_writeAngle_idle hidle ch deg).symm.trans h
      obtain ⟨_, _, _, _, hframe, _⟩ := s.acceptAngle_spec ch deg
      exact (hframe.trans (State.serve_frame ..)).trimsInRange hs
  · cases (exec_busy hbusy i).symm.trans h
    exact hs

/-- Settles O53: a setter stores a clamped value, a reset the reset values, and nothing else changes a trim. -/
theorem trimsAreAlwaysInRange : Obligations.TrimsAreAlwaysInRange := by
  refine ⟨by decide, fun s t hs h => ?_⟩
  rcases step_cases h with ⟨_, rfl⟩ | ⟨_, e, es, _, rfl⟩ | ⟨_, _, _, rfl⟩ | ⟨_, _, _, _, rfl⟩ |
    ⟨_, _, _, w, ws, i, _, _, hexec⟩ | ⟨_, _, _, w, ws, e, _, _, rfl⟩
  · exact s.abandonWrite.resetBlock_trimsInRange
  · cases e <;> exact hs
  · exact (s.serve_frame s.answers).trimsInRange hs
  · exact hs
  · exact exec_trimsInRange (s := { s with port := ws }) hs hexec
  · exact hs

/-! ### The outstanding write -/

/-- Every write the sequencer can stand at goes to a listed register of the one device (20_memory.md R47). -/
theorem State.currentWrite_allowed {s : State} (hch : IsChannel s.latch.ch) : s.currentWrite.Allowed := by
  refine ⟨rfl, ?_⟩
  unfold State.currentWrite
  cases s.seqStep with
  | chLo => exact pulseL_emitted hch
  | chHi => exact pulseH_emitted hch
  | _ => exact of_decide_eq_true rfl

/-- A write to the chip at a register address keeps the canonical form. -/
theorem Memory.wf_write_reg {m : Memory} (h : m.wf) (reg b : Byte) : (m.write reg.toNat b).wf :=
  Memory.wf_write b h reg.isLt

/-! ### The sequencer -/

/-- What `State.SequencerOk` says of a BUSY block. -/
structure State.CommandOk (s : State) : Prop where
  channel : IsChannel s.latch.ch
  angle_pos : 1 ≤ s.latch.d
  angle_fits : s.latch.d ≤ 2147483647
  phase_of_init : s.seqStep.isInit = !s.init
  bytes : s.seqStep.isInit = false →
    s.latch.lo = lowByte (s.pulse s.latch.d) ∧ s.latch.hb = highByte (s.pulse s.latch.d)

theorem State.sequencerOk_iff (s : State) : s.SequencerOk ↔ (s.phase = .busy → s.CommandOk) := by
  refine forall_congr' fun _ => ⟨?_, ?_⟩
  · rintro ⟨hch, hpos, hfits, hinit, hbytes⟩
    exact ⟨hch, hpos, hfits, hinit, hbytes⟩
  · rintro ⟨hch, hpos, hfits, hinit, hbytes⟩
    exact ⟨hch, hpos, hfits, hinit, hbytes⟩

theorem State.sequencerOk_idle {s : State} (h : s.phase = .idle) : s.SequencerOk := by
  simp [State.SequencerOk, h]

/-- The initialization phase goes on to its next write. -/
theorem State.CommandOk.goTo {s : State} (h : s.CommandOk) {p : SeqStep} (hp : p.isInit = s.seqStep.isInit) :
    (s.goTo p).CommandOk where
  channel := h.channel
  angle_pos := h.angle_pos
  angle_fits := h.angle_fits
  phase_of_init := hp.trans h.phase_of_init
  bytes := fun hchannel => h.bytes (hp ▸ hchannel)

/-- The channel phase begins with INIT set. -/
theorem State.enterChannel_commandOk {s : State} (hinit : s.init = true) (hch : IsChannel s.latch.ch)
    (hpos : 1 ≤ s.latch.d) (hfits : s.latch.d ≤ 2147483647) : s.enterChannel.CommandOk where
  channel := hch
  angle_pos := hpos
  angle_fits := hfits
  phase_of_init := by simp [hinit, SeqStep.isInit]
  bytes := fun _ => ⟨rfl, rfl⟩

/-- An OK leaves a consistent sequencer consistent, in each of its eight places. -/
theorem State.CommandOk.advance {s : State} (h : s.CommandOk) : s.advance.SequencerOk := by
  rw [State.sequencerOk_iff]
  intro hbusy
  unfold State.advance at hbusy ⊢
  cases hstep : s.seqStep <;> simp only [hstep] at hbusy ⊢
  case init6 => exact State.enterChannel_commandOk rfl h.channel h.angle_pos h.angle_fits
  case chHi => cases hbusy
  all_goals exact h.goTo (by rw [hstep]; rfl)

/-! ### The invariant -/

/-- The invariant does not speak of the answers still to come. -/
theorem State.Inv.with_answers {s : State} (h : s.Inv) (as : List Answer) : State.Inv { s with answers := as } :=
  ⟨h.trims, h.sequencer, h.busLog, h.responses, h.chip⟩

theorem State.Inv.with_port {s : State} (h : s.Inv) (ws : List CommandWord) : State.Inv { s with port := ws } :=
  ⟨h.trims, h.sequencer, h.busLog, h.responses, h.chip⟩

theorem State.Inv.with_chipEvents {s : State} (h : s.Inv) (es : List ChipEvent) :
    State.Inv { s with chipEvents := es } :=
  ⟨h.trims, h.sequencer, h.busLog, h.responses, h.chip⟩

/-- A response that ends the command keeps the invariant where it is a legal one. -/
theorem State.Inv.respond {s : State} {st : Status} {info : Byte} (trims : s.TrimsInRange)
    (busLog : ∀ r ∈ s.busLog, r.write.Allowed) (responses : ∀ r ∈ s.responses, LegalResponse r) (chip : s.chip.wf)
    (hlegal : LegalResponse (responseWord st info)) : (s.respond st info).Inv where
  trims := trims
  sequencer := State.sequencerOk_idle rfl
  busLog := busLog
  responses := by
    rw [State.respond_responses]
    exact List.forall_mem_append.mpr ⟨responses, List.forall_mem_singleton.mpr hlegal⟩
  chip := chip

/-- The log with the outstanding write of a consistent sequencer added. -/
theorem State.Inv.logWrite_busLog {s : State} (h : s.Inv) (hch : IsChannel s.latch.ch) (r : TxResult) :
    ∀ x ∈ (s.logWrite r).busLog, x.write.Allowed := by
  rw [State.logWrite_busLog]
  exact List.forall_mem_append.mpr ⟨h.busLog, List.forall_mem_singleton.mpr (State.currentWrite_allowed hch)⟩

/-- The transport's answer to the outstanding write keeps the invariant. -/
theorem State.Inv.transact {s : State} (h : s.Inv) (hbusy : s.phase = .busy) (a : Answer) : (s.transact a).Inv := by
  have hcommand : s.CommandOk := s.sequencerOk_iff.mp h.sequencer hbusy
  have hlog := h.logWrite_busLog hcommand.channel
  cases a with
  | err =>
    exact .respond h.trims (hlog .err) h.responses (Memory.wf_write_reg h.chip ..)
      (.inr (.inr ⟨_, (State.currentWrite_allowed hcommand.channel).2, rfl⟩))
  | ok =>
    have hcommand' : ((s.logWrite .ok).deliver).CommandOk :=
      ⟨hcommand.channel, hcommand.angle_pos, hcommand.angle_fits, hcommand.phase_of_init, hcommand.bytes⟩
    refine ⟨(s.transact_frame .ok).trimsInRange h.trims, hcommand'.advance, ?busLog, ?responses, ?chip⟩
    case busLog => simpa [State.transact] using hlog .ok
    case responses =>
      simp only [State.transact, State.advance_responses]
      refine List.forall_mem_append.mpr ⟨h.responses, ?_⟩
      split
      · exact List.forall_mem_singleton.mpr (.inl rfl)
      · exact List.forall_mem_nil _
    case chip =>
      rw [State.transact, State.advance_chip]
      exact Memory.wf_write_reg h.chip ..

theorem State.Inv.serve {s : State} (h : s.Inv) (as : List Answer) : (s.serve as).Inv :=
  State.serve_induct (fun _ as h => h.with_answers as) (fun _ a hbusy h => h.transact hbusy a) as s h

/-- A well-formed `writeAngle` starts with a consistent sequencer (42_angle.md R100, R101). -/
theorem State.acceptAngle_commandOk (s : State) {ch : Nat} {deg : Int} (hch : IsChannel ch) (hdeg : FitsInt32 deg) :
    (s.acceptAngle ch deg).CommandOk := by
  have hpos := floorAngle_pos deg
  have hfits : floorAngle deg ≤ 2147483647 := max_le hdeg.2 (by decide)
  unfold State.acceptAngle
  cases s.init with
  | true => exact State.enterChannel_commandOk rfl hch hpos hfits
  | false => exact ⟨hch, hpos, hfits, rfl, by simp [SeqStep.isInit]⟩

theorem State.Inv.acceptAngle {s : State} (h : s.Inv) {ch : Nat} {deg : Int} (hch : IsChannel ch)
    (hdeg : FitsInt32 deg) : (s.acceptAngle ch deg).Inv := by
  obtain ⟨_, _, _, _, hframe, hres, hlog, hchip, _⟩ := s.acceptAngle_spec ch deg
  exact ⟨hframe.trimsInRange h.trims, (State.sequencerOk_iff _).mpr fun _ => s.acceptAngle_commandOk hch hdeg,
    hlog ▸ h.busLog, hres ▸ h.responses, hchip ▸ h.chip⟩

/-- A well-formed command keeps the invariant. -/
theorem State.Inv.exec {s t : State} {i : Instr} (h : s.Inv) (hwf : i.WellFormed) (hexec : exec i s = .next t) :
    t.Inv := by
  rcases s.phase_cases with hidle | hbusy
  · have htrims := exec_trimsInRange h.trims hexec
    cases i with
    | setMultiplier v =>
      cases (exec_setMultiplier_idle hidle v).symm.trans hexec
      exact .respond htrims h.busLog h.responses h.chip (.inl rfl)
    | setZeroOffset v =>
      cases (exec_setZeroOffset_idle hidle v).symm.trans hexec
      exact .respond htrims h.busLog h.responses h.chip (.inl rfl)
    | setScaleFactor v =>
      cases (exec_setScaleFactor_idle hidle v).symm.trans hexec
      exact .respond htrims h.busLog h.responses h.chip (.inl rfl)
    | writeAngle ch deg =>
      cases (exec_writeAngle_idle hidle ch deg).symm.trans hexec
      exact (h.acceptAngle hwf.1 hwf.2).serve _
  · cases (exec_busy hbusy i).symm.trans hexec
    exact h.with_port _

/-- Nothing is outstanding in an IDLE block for a reset to abandon. -/
theorem State.abandonWrite_idle {s : State} (h : s.phase = .idle) : s.abandonWrite = s := by
  rw [State.abandonWrite, h]

theorem State.abandonWrite_busy {s : State} (h : s.phase = .busy) :
    s.abandonWrite = { (s.logWrite .abandoned).leaveOpen with answers := s.answers.tail } := by
  rw [State.abandonWrite, h]

/-- A reset abandons the outstanding write, if there is one, and resets the block's elements. -/
theorem State.Inv.applyReset {s : State} (h : s.Inv) : s.applyReset.Inv := by
  rcases s.phase_cases with hidle | hbusy
  · rw [State.applyReset, State.abandonWrite_idle hidle]
    exact ⟨s.resetBlock_trimsInRange, State.sequencerOk_idle rfl, h.busLog, h.responses, h.chip⟩
  · have hcommand : s.CommandOk := s.sequencerOk_iff.mp h.sequencer hbusy
    rw [State.applyReset, State.abandonWrite_busy hbusy]
    exact ⟨State.resetBlock_trimsInRange _, State.sequencerOk_idle rfl, h.logWrite_busLog hcommand.channel .abandoned,
      h.responses, Memory.wf_write_reg h.chip ..⟩

theorem State.Inv.applyChipEvent {s : State} (h : s.Inv) (e : ChipEvent) : (s.applyChipEvent e).Inv := by
  cases e with
  | written reg val => exact ⟨h.trims, h.sequencer, h.busLog, h.responses, Memory.wf_write_reg h.chip reg val⟩
  | lost => exact ⟨h.trims, h.sequencer, h.busLog, h.responses, s.chip.wf_lose⟩

/-- Settles O55: each of the operations a step can be keeps the invariant; a command read from a word is well-formed. -/
theorem everyStepKeepsInv : Obligations.EveryStepKeepsInv := by
  intro s t hs h
  rcases step_cases h with ⟨_, rfl⟩ | ⟨_, e, es, _, rfl⟩ | ⟨_, _, _, rfl⟩ | ⟨_, _, _, _, rfl⟩ |
    ⟨_, _, _, w, ws, i, _, hdecode, hexec⟩ | ⟨_, _, _, w, ws, e, _, _, rfl⟩
  · exact hs.applyReset
  · exact (hs.with_chipEvents es).applyChipEvent e
  · exact hs.serve s.answers
  · exact hs
  · exact (hs.with_port ws).exec (decode_wellFormed hdecode) hexec
  · exact .respond (s := { s with port := ws }) hs.trims hs.busLog hs.responses hs.chip (.inr (.inl rfl))

/-- Settles O54: the reset trims are in range, the block is IDLE and nothing is logged or listed. -/
theorem invHoldsAtReset : Obligations.InvHoldsAtReset where
  trims := by decide
  sequencer := State.sequencerOk_idle rfl
  busLog := List.forall_mem_nil _
  responses := List.forall_mem_nil _
  chip := Memory.wf_reset

end Sys2Proof.Machine
end

section
/-! What a step adds to the two logs (20_memory.md R56, R57; 30_encoding.md R69; 60_exceptions.md R126), and what the
command port sees of it (70_reset_and_hazards.md R147). -/

namespace Sys2Proof.Machine

/-! ### The step of an IDLE block at its port -/

theorem runWord_of_decode {w : CommandWord} {i : Instr} (h : decode w = .ok i) (s : State) :
    runWord w s = exec i s := by
  rw [runWord, h]

theorem runWord_of_illegal {w : CommandWord} (h : Spec.IsIllegal w) (s : State) :
    runWord w s = .next s.respondIllegal := by
  obtain ⟨e, he⟩ := decode_refuses_iff.mpr fun hlegal => decode_accepts_iff.mp hlegal h
  rw [runWord, he]

/-- Settles O8: the decoded command is well-formed, and the step of an IDLE block runs the word at its port. -/
theorem stepRunsTheDecodedCommand : Obligations.StepRunsTheDecodedCommand :=
  fun _ _ _ _ hidle hr he hq hdecode =>
    ⟨decode_wellFormed hdecode, (step_word hr he hidle hq).trans (runWord_of_decode hdecode _)⟩

theorem exec_total (i : Instr) (s : State) : ∃ t, exec i s = .next t := by
  obtain ⟨t, _, h, _⟩ := exec_chipBlindAt i s s.chip
  exact ⟨t, h⟩

theorem step_total (s : State) : ∃ t, step s = .next t := by
  obtain ⟨t, _, h, _⟩ := step_chipBlindAt s s.chip
  exact ⟨t, h⟩

/-- Settles O11: a step and a command lead to a next state, as they must to be blind to the chip. -/
theorem nothingStopsTheBlock : Obligations.NothingStopsTheBlock := ⟨step_total, exec_total⟩

/-- A step in which nothing happens can be repeated for ever. -/
theorem run_of_step_self {s : State} (h : step s = .next s) (n : Nat) : Sys2Proof.core.run n s = .next s := by
  induction n with
  | zero => rfl
  | succ n ih =>
    have hstep : Sys2Proof.core.step s = .next s := h
    simp only [Host.Core.run, hstep, ih]

/-- Settles O12: with no answer to serve, the step of a BUSY block leads back to the state it is taken in. -/
theorem unansweredBlockWaitsForEver : Obligations.UnansweredBlockWaitsForEver := by
  intro s hbusy hanswers hr he
  have hwaits : s.resume = s := by
    rw [State.resume, hanswers, State.serve_nil, ← hanswers]
  exact run_of_step_self ((step_busy hr he hbusy).trans (congrArg _ hwaits))

/-! ### The port -/

/-- An IDLE block runs a command without touching its port. -/
theorem exec_port_of_idle {s t : State} {i : Instr} (hidle : s.phase = .idle) (h : exec i s = .next t) :
    t.port = s.port := by
  cases i with
  | setMultiplier v => cases (exec_setMultiplier_idle hidle v).symm.trans h; rfl
  | setZeroOffset v => cases (exec_setZeroOffset_idle hidle v).symm.trans h; rfl
  | setScaleFactor v => cases (exec_setScaleFactor_idle hidle v).symm.trans h; rfl
  | writeAngle ch deg =>
    cases (exec_writeAngle_idle hidle ch deg).symm.trans h
    obtain ⟨_, _, _, _, hframe, _⟩ := s.acceptAngle_spec ch deg
    exact (hframe.trans (State.serve_frame ..)).port

theorem runWord_port_of_idle {w : CommandWord} {s t : State} (hidle : s.phase = .idle) (h : runWord w s = .next t) :
    t.port = s.port := by
  unfold runWord at h
  split at h
  · exact exec_port_of_idle hidle h
  · cases h
    rfl

theorem State.applyChipEvent_port (s : State) (e : ChipEvent) : (s.applyChipEvent e).port = s.port := by
  cases e <;> rfl

/-- Settles O10: a BUSY block takes a chip event or goes on with its command, which both leave the port; a command
presented to it is held; an IDLE block takes the first word. -/
theorem portHoldsCommandsWhileBusy : Obligations.PortHoldsCommandsWhileBusy := by
  refine ⟨fun s t hbusy hr h => ?left, fun s i hbusy => exec_busy hbusy i, fun s w ws hidle hr he hq => ?taken⟩
  case left =>
    cases he : s.chipEvents with
    | cons e es =>
      cases (step_chipEvent hr he).symm.trans h
      exact State.applyChipEvent_port { s with chipEvents := es } e
    | nil =>
      cases (step_busy hr he hbusy).symm.trans h
      exact (s.serve_frame s.answers).port
  case taken =>
    obtain ⟨t, h⟩ := step_total s
    exact ⟨t, h, runWord_port_of_idle (s := { s with port := ws }) hidle ((step_word hr he hidle hq).symm.trans h)⟩

/-! ### What a step that is no reset adds to the logs -/

/-- Log entries and responses added, and the phase reached: writes that all answered OK and no response; such writes
and one response with the status `st`; or such writes, one that answered ERR and its TRANSPORT_ERROR. -/
inductive Adds (st : Status) : List BusRecord → List ResponseWord → Phase → Prop where
  | silent {new : List BusRecord} {phase : Phase} (hok : ∀ r ∈ new, r.result = .ok) : Adds st new [] phase
  | answered {new : List BusRecord} (hok : ∀ r ∈ new, r.result = .ok) : Adds st new [responseWord st 0] .idle
  | failed {new : List BusRecord} (w : BusWrite) (hok : ∀ r ∈ new, r.result = .ok) :
      Adds st (new ++ [⟨w, .err⟩]) [responseWord .transportError w.reg] .idle

/-- `Adds` of what `t` has more than `s`. -/
def State.AddsTo (st : Status) (s t : State) : Prop :=
  ∃ new resp, t.busLog = s.busLog ++ new ∧ t.responses = s.responses ++ resp ∧ Adds st new resp t.phase

theorem State.AddsTo.of_eq {st : Status} {s t : State} (hlog : t.busLog = s.busLog) (hres : t.responses = s.responses) :
    s.AddsTo st t :=
  ⟨[], [], by simp [hlog], by simp [hres], .silent (List.forall_mem_nil _)⟩

theorem State.respond_addsTo (s : State) (st : Status) : s.AddsTo st (s.respond st 0) :=
  ⟨[], _, by simp, rfl, .answered (List.forall_mem_nil _)⟩

theorem State.serve_addsTo {s : State} (hbusy : s.phase = .busy) (as : List Answer) : s.AddsTo .ok (s.serve as) := by
  obtain ⟨new, hok, ⟨_, hres, hlog⟩ | ⟨hidle, hres, hlog⟩ | ⟨w, hidle, hres, hlog⟩⟩ := State.serve_cases hbusy as
  · exact ⟨new, [], hlog, hres.trans (List.append_nil _).symm, .silent hok⟩
  · exact ⟨new, _, hlog, hres, hidle ▸ .answered hok⟩
  · exact ⟨_, _, hlog.trans (List.append_assoc ..), hres, hidle ▸ .failed w hok⟩

theorem exec_addsTo {s t : State} {i : Instr} (h : exec i s = .next t) : s.AddsTo .ok t := by
  rcases s.phase_cases with hidle | hbusy
  · cases i with
    | setMultiplier v => cases (exec_setMultiplier_idle hidle v).symm.trans h; exact (s.storeMult v).respond_addsTo .ok
    | setZeroOffset v => cases (exec_setZeroOffset_idle hidle v).symm.trans h; exact (s.storeZoff v).respond_addsTo .ok
    | setScaleFactor v =>
      cases (exec_setScaleFactor_idle hidle v).symm.trans h; exact (s.storeScale v).respond_addsTo .ok
    | writeAngle ch deg =>
      cases (exec_writeAngle_idle hidle ch deg).symm.trans h
      obtain ⟨hbusy, _, _, _, _, hres, hlog, _⟩ := s.acceptAngle_spec ch deg
      have hadds := State.serve_addsTo hbusy (s.acceptAngle ch deg).answers
      rwa [State.AddsTo, hlog, hres] at hadds
  · cases (exec_busy hbusy i).symm.trans h
    exact .of_eq rfl rfl

/-- Every step but a reset. -/
theorem step_addsTo {s t : State} (hr : s.resetIn = false) (h : step s = .next t) : ∃ st, s.AddsTo st t := by
  rcases step_cases h with ⟨hreset, _⟩ | ⟨_, e, es, _, rfl⟩ | ⟨_, _, hbusy, rfl⟩ | ⟨_, _, _, _, rfl⟩ |
    ⟨_, _, _, w, ws, i, _, _, hexec⟩ | ⟨_, _, _, w, ws, e, _, _, rfl⟩
  · simp [hr] at hreset
  · cases e <;> exact ⟨.ok, .of_eq rfl rfl⟩
  · exact ⟨.ok, State.serve_addsTo hbusy s.answers⟩
  · exact ⟨.ok, .of_eq rfl rfl⟩
  · exact ⟨.ok, exec_addsTo (s := { s with port := ws }) hexec⟩
  · exact ⟨.illegalCommand, State.respond_addsTo { s with port := ws } .illegalCommand⟩

/-- A reset adds at most the abandoned write to the bus log, and no response (70_reset_and_hazards.md R142, R143). -/
theorem State.applyReset_logs (s : State) :
    (∃ new, s.applyReset.busLog = s.busLog ++ new) ∧ s.applyReset.responses = s.responses := by
  rcases s.phase_cases with hidle | hbusy
  · rw [State.applyReset, State.abandonWrite_idle hidle]
    exact ⟨⟨[], (List.append_nil _).symm⟩, rfl⟩
  · rw [State.applyReset, State.abandonWrite_busy hbusy]
    exact ⟨⟨_, rfl⟩, rfl⟩

theorem step_busLog_grows {s t : State} (h : step s = .next t) : ∃ new, t.busLog = s.busLog ++ new := by
  cases hr : s.resetIn with
  | true =>
    cases (step_reset hr).symm.trans h
    exact s.applyReset_logs.1
  | false =>
    obtain ⟨_, new, _, hlog, _⟩ := step_addsTo hr h
    exact ⟨new, hlog⟩

/-- Settles O13: a reset gives no response, any other step none or one, and with one the block is IDLE. -/
theorem logsGrowAndOneResponseAtMost : Obligations.LogsGrowAndOneResponseAtMost := by
  refine fun s t h => ⟨step_busLog_grows h, ?response⟩
  case response =>
    cases hr : s.resetIn with
    | true =>
      cases (step_reset hr).symm.trans h
      exact .inl s.applyReset_logs.2
    | false =>
      obtain ⟨_, new, resp, _, hres, hadds⟩ := step_addsTo hr h
      generalize t.phase = phase at hadds
      cases hadds with
      | silent _ => exact .inl (hres.trans (List.append_nil _))
      | answered _ => exact .inr ⟨_, hres, rfl⟩
      | failed _ _ => exact .inr ⟨_, hres, rfl⟩

/-- Settles O43: of the writes added to the log only the last can have failed, and then the command ended with it. -/
theorem nextWriteOnlyAfterSuccess : Obligations.NextWriteOnlyAfterSuccess := by
  intro s t hr h
  obtain ⟨_, new, resp, hlog, hres, hadds⟩ := step_addsTo hr h
  refine ⟨new, hlog, ?allButLast, ?failure⟩
  case allButLast =>
    generalize t.phase = phase at hadds
    cases hadds with
    | silent hok => exact fun r hmem => hok r (List.mem_of_mem_dropLast hmem)
    | answered hok => exact fun r hmem => hok r (List.mem_of_mem_dropLast hmem)
    | failed _ hok => rwa [List.dropLast_concat]
  case failure =>
    generalize t.phase = phase at hadds ⊢
    intro r hmem hfailed
    cases hadds with
    | silent hok => exact absurd (hok r hmem) hfailed
    | answered hok => exact absurd (hok r hmem) hfailed
    | failed w hok =>
      rcases List.mem_append.mp hmem with hbefore | hlast
      · exact absurd (hok r hbefore) hfailed
      · cases List.mem_singleton.mp hlast
        exact ⟨rfl, hres⟩

/-- A command answers OK or TRANSPORT_ERROR (60_exceptions.md R124). -/
theorem Adds.statusField_ne_illegal {new : List BusRecord} {resp : List ResponseWord} {phase : Phase}
    (h : Adds .ok new resp phase) : ∀ r ∈ resp, statusField r ≠ 0x02 := by
  cases h with
  | silent _ => exact List.forall_mem_nil _
  | answered _ => exact List.forall_mem_singleton.mpr (by decide)
  | failed w _ =>
    refine List.forall_mem_singleton.mpr ?_
    rw [statusField_responseWord]
    decide

/-- Settles O9: an illegal word is answered without further effect; any other word is a command, which never has that
status. -/
theorem illegalWordIsAnsweredWithoutEffect : Obligations.IllegalWordIsAnsweredWithoutEffect := by
  intro s w ws hidle hr he hq
  have hstep := step_word hr he hidle hq
  refine ⟨fun hillegal => ?illegal, fun hlegal t h => ?legal⟩
  case illegal =>
    have hanswered : State.respondIllegal { s with port := ws } =
        { s with port := ws, responses := s.responses ++ [0x0002] } := by
      cases s
      cases hidle
      rfl
    rw [hstep, runWord_of_illegal hillegal, hanswered]
  case legal =>
    obtain ⟨i, hdecode⟩ := decode_accepts_iff.mpr hlegal
    rw [hstep, runWord_of_decode hdecode] at h
    obtain ⟨new, resp, _, hres, hadds⟩ := exec_addsTo h
    rw [hres, List.drop_left]
    exact hadds.statusField_ne_illegal

end Sys2Proof.Machine
end

section
/-! Which registers a step writes (20_memory.md R47; 41_init.md R96), and what an error leaves (60_exceptions.md
R128). -/

namespace Sys2Proof.Machine

/-! ### The listed registers -/

/-- The listed registers are those of the initialization and the sixteen pairs (20_memory.md R47). -/
theorem mem_emittedRegs_cases {reg : Byte} (h : reg ∈ emittedRegs) :
    reg ∈ [0x00, 0xFA, 0xFB, 0xFC, 0xFD, (0xFE : Byte)] ∨
    ∃ k, k < 16 ∧ (reg.toNat = 0x08 + 4 * k ∨ reg.toNat = 0x09 + 4 * k) := by
  rcases List.mem_append.mp h with hinit | hchannel
  · exact .inl hinit
  · obtain ⟨k, hk, hreg⟩ := List.mem_flatMap.mp hchannel
    have hlt : k < 16 := List.mem_range.mp hk
    refine .inr ⟨k, hlt, ?_⟩
    rcases List.mem_pair.mp hreg with rfl | rfl <;> rw [BitVec.toNat_ofNat] <;> omega

/-- Settles O27: the log after the step holds allowed writes only, those the step added among them. -/
theorem onlyListedRegistersAreWritten : Obligations.OnlyListedRegistersAreWritten := by
  intro s t hs h
  obtain ⟨new, hlog⟩ := step_busLog_grows h
  refine ⟨new, hlog, fun r hr => ?_⟩
  obtain ⟨hdev, hreg⟩ := (everyStepKeepsInv s t hs h).busLog r (hlog ▸ List.mem_append_right _ hr)
  exact ⟨hdev, mem_emittedRegs_cases hreg⟩

/-! ### The writes of an initialized block -/

/-- With INIT set the outstanding write goes to a channel register (41_init.md R90, R96). -/
theorem State.CommandOk.currentWrite_isChannelReg {s : State} (h : s.CommandOk) (hinit : s.init = true) :
    IsChannelReg s.currentWrite.reg := by
  have hphase : s.seqStep.isInit = false := by rw [h.phase_of_init, hinit]; rfl
  refine ⟨s.latch.ch, h.channel, ?_⟩
  unfold State.currentWrite
  cases hstep : s.seqStep with
  | chLo => exact .inl rfl
  | chHi => exact .inr rfl
  | _ => simp [hstep, SeqStep.isInit] at hphase

/-- From `s` to `t` only writes to channel registers join the log. -/
def State.LogsChannelOnly (s t : State) : Prop :=
  ∃ new, t.busLog = s.busLog ++ new ∧ ∀ r ∈ new, IsChannelReg r.write.reg

theorem State.LogsChannelOnly.of_eq {s t : State} (h : t.busLog = s.busLog) : s.LogsChannelOnly t :=
  ⟨[], by simp [h], List.forall_mem_nil _⟩

/-- An answered write of an initialized block. -/
theorem State.LogsChannelOnly.transact {s x : State} (h : s.LogsChannelOnly x) (hx : x.CommandOk)
    (hinit : x.init = true) (a : Answer) : s.LogsChannelOnly (x.transact a) := by
  obtain ⟨new, hlog, hnew⟩ := h
  obtain ⟨_, _, _, _, _, _, _, ⟨r, hlog', _⟩, _⟩ := x.transact_spec a
  exact ⟨new ++ [⟨x.currentWrite, r⟩], by rw [hlog', hlog, List.append_assoc],
    List.forall_mem_append.mpr ⟨hnew, List.forall_mem_singleton.mpr (hx.currentWrite_isChannelReg hinit)⟩⟩

theorem State.Inv.serve_logsChannelOnly {s : State} (h : s.Inv) (hinit : s.init = true) (as : List Answer) :
    s.LogsChannelOnly (s.serve as) := by
  have hserved : (s.serve as).Inv ∧ (s.serve as).init = true ∧ s.LogsChannelOnly (s.serve as) := by
    refine State.serve_induct (P := fun x => x.Inv ∧ x.init = true ∧ s.LogsChannelOnly x)
      (fun _ as ⟨hx, hrest⟩ => ⟨hx.with_answers as, hrest⟩) (fun x a hbusy ⟨hx, hinit, hlogs⟩ => ?answered) as s
      ⟨h, hinit, .of_eq rfl⟩
    case answered =>
      exact ⟨hx.transact hbusy a, (x.transact_initFollowsLog a).kept hinit,
        hlogs.transact (x.sequencerOk_iff.mp hx.sequencer hbusy) hinit a⟩
  exact hserved.2.2

theorem State.Inv.exec_logsChannelOnly {s t : State} {i : Instr} (h : s.Inv) (hinit : s.init = true)
    (hwf : i.WellFormed) (hexec : Machine.exec i s = .next t) : s.LogsChannelOnly t := by
  rcases s.phase_cases with hidle | hbusy
  · cases i with
    | setMultiplier v => cases (exec_setMultiplier_idle hidle v).symm.trans hexec; exact .of_eq rfl
    | setZeroOffset v => cases (exec_setZeroOffset_idle hidle v).symm.trans hexec; exact .of_eq rfl
    | setScaleFactor v => cases (exec_setScaleFactor_idle hidle v).symm.trans hexec; exact .of_eq rfl
    | writeAngle ch deg =>
      cases (exec_writeAngle_idle hidle ch deg).symm.trans hexec
      obtain ⟨_, _, _, hkept, _, _, hlog, _⟩ := s.acceptAngle_spec ch deg
      have hserved := (h.acceptAngle hwf.1 hwf.2).serve_logsChannelOnly (hkept.trans hinit)
        (s.acceptAngle ch deg).answers
      rwa [State.LogsChannelOnly, hlog] at hserved
  · cases (exec_busy hbusy i).symm.trans hexec
    exact .of_eq rfl

/-- Settles O36: no step but a reset clears INIT, and a BUSY block with INIT set is in the channel phase. -/
theorem noInitWriteOnceInitialized : Obligations.NoInitWriteOnceInitialized := by
  refine fun s t hs hinit hr h => ⟨(step_initFollowsLog hr h).kept hinit, (?_ : s.LogsChannelOnly t)⟩
  rcases step_cases h with ⟨hreset, _⟩ | ⟨_, e, es, _, rfl⟩ | ⟨_, _, _, rfl⟩ | ⟨_, _, _, _, rfl⟩ |
    ⟨_, _, _, w, ws, i, _, hdecode, hexec⟩ | ⟨_, _, _, w, ws, e, _, _, rfl⟩
  · simp [hr] at hreset
  · cases e <;> exact .of_eq rfl
  · exact hs.serve_logsChannelOnly hinit s.answers
  · exact .of_eq rfl
  · exact (hs.with_port ws).exec_logsChannelOnly hinit (decode_wellFormed hdecode) hexec
  · exact .of_eq rfl

/-! ### Errors -/

theorem not_isError_ok (info : Byte) : ¬ IsError (responseWord .ok info) := by
  rw [IsError, statusField_responseWord]
  decide

/-- Between `s` and `x` the command has not been answered; or it has, and an error with INIT set is that of a channel
write. -/
def State.ErrsAtChannel (s x : State) : Prop :=
  (x.phase = .busy ∧ x.responses = s.responses) ∨
  (x.phase = .idle ∧ ∃ r, x.responses = s.responses ++ [r] ∧ (IsError r → x.init = true → IsChannelReg (infoField r)))

theorem State.CommandOk.transact_errsAtChannel {s x : State} (hx : x.CommandOk) (hbusy : x.phase = .busy)
    (hres : x.responses = s.responses) (a : Answer) : s.ErrsAtChannel (x.transact a) := by
  cases a with
  | err =>
    obtain ⟨hidle, hinit, hres'⟩ := x.transact_err
    refine .inr ⟨hidle, _, by rw [hres', hres], fun _ hhigh => ?_⟩
    rw [infoField_responseWord]
    exact hx.currentWrite_isChannelReg (hinit.symm.trans hhigh)
  | ok =>
    by_cases hlast : x.seqStep = .chHi
    · exact .inr ⟨by simp [State.transact, State.advance_phase, hlast], responseWord .ok 0,
        by simp [State.transact, State.advance_responses, hlast, hres], fun herr => absurd herr (not_isError_ok 0)⟩
    · exact .inl ⟨by simp [State.transact, State.advance_phase, hlast, hbusy],
        by simp [State.transact, State.advance_responses, hlast, hres]⟩

theorem State.Inv.serve_errsAtChannel {s : State} (h : s.Inv) (hbusy : s.phase = .busy) (as : List Answer) :
    s.ErrsAtChannel (s.serve as) := by
  have hserved : (s.serve as).Inv ∧ s.ErrsAtChannel (s.serve as) := by
    refine State.serve_induct (P := fun x => x.Inv ∧ s.ErrsAtChannel x)
      (fun _ as ⟨hx, herrs⟩ => ⟨hx.with_answers as, herrs⟩) (fun x a hbusy ⟨hx, herrs⟩ => ?answered) as s
      ⟨h, .inl ⟨hbusy, rfl⟩⟩
    case answered =>
      refine ⟨hx.transact hbusy a, ?_⟩
      obtain ⟨_, hres⟩ | ⟨hidle, _⟩ := herrs
      · exact (x.sequencerOk_iff.mp hx.sequencer hbusy).transact_errsAtChannel hbusy hres a
      · simp [hbusy] at hidle
  exact hserved.2

/-- The response given is the one `State.ErrsAtChannel` speaks of. -/
theorem State.ErrsAtChannel.of_response {s t : State} {r : ResponseWord} (h : s.ErrsAtChannel t)
    (hres : t.responses = s.responses ++ [r]) (herr : IsError r) (hinit : t.init = true) :
    IsChannelReg (infoField r) := by
  obtain ⟨_, hnone⟩ | ⟨_, r', hres', hchannel⟩ := h
  · simp [hnone] at hres
  · cases List.append_cancel_left (hres.symm.trans hres')
    exact hchannel herr hinit

/-- The only command that ends in an error is a `writeAngle`: it leaves the trims and the scale, and with INIT set the
error is that of a channel write. -/
theorem State.Inv.exec_error {s t : State} {i : Instr} {r : ResponseWord} (h : s.Inv) (hwf : i.WellFormed)
    (hidle : s.phase = .idle) (hexec : Machine.exec i s = .next t) (hres : t.responses = s.responses ++ [r])
    (herr : IsError r) : s.Frame t ∧ (t.init = true → IsChannelReg (infoField r)) := by
  have hsetter {x : State} (hx : x.responses = s.responses) (hadds : x.respondOk.responses = s.responses ++ [r]) :
      False := by
    rw [State.respondOk, State.respond_responses, hx] at hadds
    cases List.append_cancel_left hadds
    exact not_isError_ok 0 herr
  cases i with
  | setMultiplier v =>
    cases (exec_setMultiplier_idle hidle v).symm.trans hexec
    exact (hsetter (s.storeMult_responses v) hres).elim
  | setZeroOffset v =>
    cases (exec_setZeroOffset_idle hidle v).symm.trans hexec
    exact (hsetter (s.storeZoff_responses v) hres).elim
  | setScaleFactor v =>
    cases (exec_setScaleFactor_idle hidle v).symm.trans hexec
    exact (hsetter (s.storeScale_responses v) hres).elim
  | writeAngle ch deg =>
    cases (exec_writeAngle_idle hidle ch deg).symm.trans hexec
    obtain ⟨hbusy, _, _, _, hframe, hkept, _⟩ := s.acceptAngle_spec ch deg
    have herrs := (h.acceptAngle hwf.1 hwf.2).serve_errsAtChannel hbusy (s.acceptAngle ch deg).answers
    exact ⟨hframe.trans (State.serve_frame ..), herrs.of_response (hkept ▸ hres) herr⟩

/-- INIT after a step that is no reset: as before, or raised. -/
theorem step_init_cases {s t : State} (hr : s.resetIn = false) (h : step s = .next t) :
    t.init = s.init ∨ (s.init = false ∧ t.init = true) := by
  have hkept := (step_initFollowsLog hr h).kept
  cases hs : s.init with
  | true => exact .inl (hkept hs)
  | false => cases t.init <;> simp

/-- Settles O46: an illegal word changes no element; a BUSY block that goes on, and a `writeAngle`, leave the trims
and the scale, and if INIT was raised the write that failed is a channel write. -/
theorem errorsArePrecise : Obligations.ErrorsArePrecise := by
  intro s t r hs hr h hres herr
  have hinit {c : Prop} (hc : t.init = true → c) : t.init = s.init ∨ (s.init = false ∧ t.init = true ∧ c) :=
    (step_init_cases hr h).imp_right fun ⟨hlow, hhigh⟩ => ⟨hlow, hhigh, hc hhigh⟩
  rcases step_cases h with ⟨hreset, _⟩ | ⟨_, e, es, _, rfl⟩ | ⟨_, _, hbusy, rfl⟩ | ⟨_, _, _, _, rfl⟩ |
    ⟨_, _, hidle, w, ws, i, _, hdecode, hexec⟩ | ⟨_, _, _, w, ws, e, _, _, rfl⟩
  · simp [hr] at hreset
  · rw [(State.applyChipEvent_unanswered ..).1] at hres
    simp at hres
  · have hframe := s.serve_frame s.answers
    exact ⟨hframe.mult, hframe.zoff, hframe.scale,
      hinit ((hs.serve_errsAtChannel hbusy s.answers).of_response hres herr)⟩
  · simp at hres
  · obtain ⟨hframe, hchannel⟩ := (hs.with_port ws).exec_error (decode_wellFormed hdecode) hidle hexec hres herr
    exact ⟨hframe.mult, hframe.zoff, hframe.scale, hinit hchannel⟩
  · exact ⟨rfl, rfl, rfl, .inl rfl⟩

end Sys2Proof.Machine
end

section
/-! Whole commands of a block whose transport answers: the initialization and the channel phase as one equation each
(41_init.md R98, 42_angle.md R100), and the accounts of a `writeAngle` by its list of writes. -/

namespace Sys2Proof.Machine

/-! ### The two phases of a command, every write answered OK -/

/-- The channel phase with two OKs: low byte and high bit are written, and the command is answered. -/
theorem State.serve_channel_ok {s : State} (hbusy : s.phase = .busy) (hstep : s.seqStep = .chLo) (rest : List Answer) :
    s.serve (.ok :: .ok :: rest) = { s with
      phase := .idle
      seqStep := .chHi
      answers := rest
      responses := s.responses ++ [responseWord .ok 0]
      busLog := s.busLog ++ records [(pulseL s.latch.ch, s.latch.lo), (pulseH s.latch.ch, s.latch.hb)] .ok
      chip := s.chip.delivered [(pulseL s.latch.ch, s.latch.lo), (pulseH s.latch.ch, s.latch.hb)] } := by
  cases s
  cases hbusy
  cases hstep
  rw [State.serve_cons_busy rfl, State.serve_cons_busy rfl, State.serve_idle rfl]
  simp [State.transact, State.advance, State.logWrite, State.deliver, State.goTo, State.respondOk, State.respond,
    State.currentWrite, writeAt, records, toDevice]

/-- The initialization phase with six OKs: the listed writes are made, INIT is set, and the channel phase begins. -/
theorem State.serve_init_ok {s : State} (hbusy : s.phase = .busy) (hstep : s.seqStep = .init1) (rest : List Answer) :
    s.serve (List.replicate 6 .ok ++ rest) = State.serve (State.enterChannel { s with
      init := true
      busLog := s.busLog ++ records initSequence .ok
      chip := s.chip.delivered initSequence }) rest := by
  cases s
  cases hbusy
  cases hstep
  simp only [List.replicate, List.cons_append, List.nil_append]
  rw [State.serve_cons_busy rfl, State.serve_cons_busy rfl, State.serve_cons_busy rfl, State.serve_cons_busy rfl,
    State.serve_cons_busy rfl, State.serve_cons_busy rfl]
  simp [State.transact, State.advance, State.logWrite, State.deliver, State.goTo, State.enterChannel,
    State.currentWrite, writeAt, records, toDevice, initSequence, State.pulse]

theorem pulseH_eq {ch : Nat} (h : IsChannel ch) : pulseH ch = BitVec.ofNat 8 (0x09 + 4 * (ch - 1)) := by
  apply BitVec.eq_of_toNat_eq
  rw [pulseH_toNat h, BitVec.toNat_ofNat]
  omega

/-- The log entries of the two channel writes, by their numbers (20_memory.md R44, R45). -/
theorem records_channel {ch : Nat} (h : IsChannel ch) (lo hb : Byte) :
    records [(pulseL ch, lo), (pulseH ch, hb)] .ok =
      [⟨⟨0x6A, BitVec.ofNat 8 (0x08 + 4 * (ch - 1)), lo⟩, .ok⟩,
       ⟨⟨0x6A, BitVec.ofNat 8 (0x09 + 4 * (ch - 1)), hb⟩, .ok⟩] := by
  rw [pulseH_eq h]
  rfl

/-- Settles O28: an initialized block starts with the channel phase, which two OKs bring to its end. -/
theorem writeAngleDrivesTheChannel : Obligations.WriteAngleDrivesTheChannel := by
  rintro s ch deg rest hch - hidle hinit hanswers p rfl
  refine ⟨s.chip.delivered (s.commandWrites ch deg), ?_⟩
  have haccept : s.acceptAngle ch deg = State.enterChannel
      { s with phase := .busy, latch := { s.latch with ch := ch, d := floorAngle deg } } := by
    rw [State.acceptAngle, hinit]
  rw [exec_writeAngle_idle hidle, haccept, State.resume, State.enterChannel_answers, hanswers,
    State.serve_channel_ok rfl rfl, ← records_channel hch, State.commandWrites_initialized hinit]
  cases s
  cases hidle
  rfl

/-- Settles O29: an uninitialized block starts with the initialization phase, which six OKs bring to the channel
phase. -/
theorem firstWriteAngleInitializesTheChip : Obligations.FirstWriteAngleInitializesTheChip := by
  rintro s ch deg rest hch - hidle hinit hanswers p rfl
  refine ⟨s.chip.delivered (s.commandWrites ch deg), ?_⟩
  have haccept : s.acceptAngle ch deg = State.goTo
      { s with phase := .busy, latch := { s.latch with ch := ch, d := floorAngle deg } } .init1 := by
    rw [State.acceptAngle, hinit]
  have hsplit : List.replicate 8 Answer.ok ++ rest = List.replicate 6 .ok ++ .ok :: .ok :: rest := rfl
  rw [exec_writeAngle_idle hidle, haccept, State.resume, State.goTo_answers, hanswers, hsplit,
    State.serve_init_ok rfl rfl, State.serve_channel_ok rfl rfl, State.commandWrites_uninitialized hinit]
  cases s
  cases hidle
  dsimp only [State.goTo, State.enterChannel]
  rw [List.append_assoc, records_channel hch]
  rfl

/-! ### INIT and the list of writes -/

/-- The initialization writes come first where INIT is 0 (41_init.md R90). -/
theorem State.initSequence_prefix {s : State} (hlow : s.init = false) (ch : Nat) (deg : Int) :
    initSequence <+: s.commandWrites ch deg := by
  rw [State.commandWrites_uninitialized hlow]
  exact List.prefix_append ..

/-- At most two writes of a command are left exactly if INIT was set or the initialization writes came before. -/
theorem State.left_le_two_iff {s : State} {ch : Nat} {deg : Int} {before after : List (Byte × Byte)} {w : Byte × Byte}
    (hwrites : s.commandWrites ch deg = before ++ w :: after) :
    (w :: after).length ≤ 2 ↔ s.init = true ∨ initSequence <+: before := by
  have hlength : (if s.init then 2 else 8) = before.length + (w :: after).length := by
    rw [← s.commandWrites_length ch deg, hwrites, List.length_append]
  have hsix : initSequence.length = 6 := rfl
  cases hinit : s.init with
  | true =>
    rw [hinit, if_pos rfl] at hlength
    exact iff_of_true (by omega) (.inl rfl)
  | false =>
    rw [hinit, if_neg Bool.false_ne_true] at hlength
    refine ⟨fun h => .inr ?_, fun h => ?_⟩
    · exact List.prefix_of_prefix_length_le (hwrites ▸ State.initSequence_prefix hinit ch deg)
        (List.prefix_append ..) (by omega)
    · have hle := (h.resolve_left Bool.false_ne_true).length_le
      omega

/-- Settles O30: the writes before the failing one are done, it is reported, and at most two writes were left exactly
if INIT is 1. -/
theorem firstFailedWriteEndsTheCommand : Obligations.FirstFailedWriteEndsTheCommand := by
  intro s ch deg before after w rest hidle hwrites hanswers
  obtain ⟨t, hexec, hidle', hinit, hkept, hframe, hres, hlog, hchip, _⟩ :=
    exec_writeAngle_fails hidle hanswers hwrites
  exact ⟨t, hexec, hidle', hkept,
    ⟨_, hres, rfl, statusField_responseWord .transportError w.1, infoField_responseWord .transportError w.1⟩, hlog,
    hinit.trans (State.left_le_two_iff hwrites), hframe.mult, hframe.zoff, hframe.scale, hframe.port, hframe.resetIn,
    hframe.chipEvents, _, hchip⟩

/-- Settles O31: the state reached after the OKs to the writes before is the one that waits. -/
theorem unansweredWriteStaysOutstanding : Obligations.UnansweredWriteStaysOutstanding := by
  intro s ch deg before after w hidle hwrites hanswers
  obtain ⟨t, hexec, hbusy, hrem, hinit, hframe, hres, hlog, hchip, hdraws⟩ :=
    exec_writeAngle_ok_prefix (rest := []) hidle (hanswers.trans (List.append_nil _).symm) hwrites
  have houtstanding : t.outstanding = some (toDevice w) :=
    (State.outstanding_busy hbusy).trans (congrArg some (State.currentWrite_of_remaining hrem))
  have hhigh : t.init = true ↔ s.init = true ∨ initSequence <+: before :=
    (hrem ▸ State.init_iff_remaining hinit).trans (State.left_le_two_iff hwrites)
  exact ⟨_, hexec, hbusy, rfl, houtstanding, hres, hlog, hhigh, hframe.mult, hframe.zoff, hframe.scale, hframe.port,
    hframe.resetIn, hframe.chipEvents, hchip, hdraws⟩

/-! ### When the answers come (70_reset_and_hazards.md R153) -/

/-- A block still BUSY after some answers goes on with the others as if they had come together. -/
theorem State.serve_append_of_busy (early late : List Answer) (s : State) (h : (s.serve early).phase = .busy) :
    s.serve (early ++ late) = (s.serve early).serve late := by
  induction early generalizing s with
  | nil => exact (State.serve_unused late [] s).symm
  | cons a early ih =>
    rcases s.phase_cases with hidle | hbusy
    · rw [State.serve_idle hidle] at h
      cases hidle.symm.trans h
    · rw [State.serve_cons_busy hbusy] at h ⊢
      rw [List.cons_append, State.serve_cons_busy hbusy, ih _ h]

/-- A command that is over leaves the answers still to come. -/
theorem State.serve_append_of_idle (early late : List Answer) (s : State) (h : (s.serve early).phase = .idle) :
    s.serve (early ++ late) = { s.serve early with answers := (s.serve early).answers ++ late } := by
  induction early generalizing s with
  | nil => exact State.serve_idle (s := s) h late
  | cons a early ih =>
    rcases s.phase_cases with hidle | hbusy
    · rw [State.serve_idle hidle, State.serve_idle hidle]
    · rw [State.serve_cons_busy hbusy] at h ⊢
      rw [List.cons_append, State.serve_cons_busy hbusy, ih _ h]

/-- A `writeAngle` serves the answers that are there from the state it is accepted in. -/
theorem exec_writeAngle_with_answers {s : State} (hidle : s.phase = .idle) (ch : Nat) (deg : Int) (as : List Answer) :
    exec (.writeAngle ch deg) { s with answers := as } = .next ((s.acceptAngle ch deg).serve as) := by
  have haccept : State.acceptAngle { s with answers := as } ch deg = { s.acceptAngle ch deg with answers := as } := by
    unfold State.acceptAngle
    cases s.init <;> rfl
  rw [exec_writeAngle_idle (s := { s with answers := as }) hidle, haccept, State.resume, State.serve_unused]

/-- Settles O32: serving the answers in two parts, the second after the first or not needed, is serving them together.
-/
theorem lateAnswersMakeNoDifference : Obligations.LateAnswersMakeNoDifference := by
  intro s t ch deg early late hidle hr he h
  rw [exec_writeAngle_with_answers hidle] at h ⊢
  cases h
  refine ⟨fun hbusy => ⟨State.serve_busy_answers early _ hbusy, ?resumed⟩, fun hdone => ?done⟩
  case resumed =>
    obtain ⟨_, _, _, _, haccept, _⟩ := s.acceptAngle_spec ch deg
    have hframe := haccept.trans (State.serve_frame _ early)
    have hstep := step_busy (s := { (s.acceptAngle ch deg).serve early with answers := late })
      (hframe.resetIn.trans hr) (hframe.chipEvents.trans he) hbusy
    rw [hstep, State.resume, State.serve_unused, State.serve_append_of_busy early late _ hbusy]
  case done => rw [State.serve_append_of_idle early late _ hdone]

/-! ### Two successes in a row (41_init.md R96) -/

/-- Settles O35: the first success sets INIT, so the second has the channel writes alone to make. -/
theorem secondWriteAngleSendsNoInitWrites : Obligations.SecondWriteAngleSendsNoInitWrites := by
  intro s ch deg rest hidle hlow hanswers ws hws
  have hwrites := State.commandWrites_uninitialized hlow ch deg
  obtain ⟨t, hexec, hidle', hhigh, hkept, hframe, hres, hlog, _, _⟩ :=
    exec_writeAngle_succeeds (ch := ch) (deg := deg) (rest := .ok :: .ok :: rest) hidle
      (by rw [hwrites]; exact hanswers)
  have hwrites' : t.commandWrites ch deg = ws := by
    rw [State.commandWrites_initialized hhigh, hframe.pulse_eq, hws]
  obtain ⟨u, hexec', _, _, hkept', _, hres', hlog', _, _⟩ :=
    exec_writeAngle_succeeds (ch := ch) (deg := deg) (rest := rest) hidle' (by rw [hwrites', hws]; exact hkept)
  refine ⟨t, u, hexec, hexec', ?first, hwrites' ▸ hlog', ?responses, hkept'⟩
  case first => rw [hlog, hwrites, ← hws, records_append, List.append_assoc]
  case responses => rw [hres', hres, List.append_assoc, List.singleton_append]

/-! ### What the chip holds (70_reset_and_hazards.md R149 to R151) -/

/-- After writes to different registers each of these holds the byte delivered to it. -/
theorem Memory.read_delivered {ws : List (Byte × Byte)} (hregs : (ws.map Prod.fst).Nodup) (m : Memory) {w : Byte × Byte}
    (hw : w ∈ ws) : (m.delivered ws).read w.1.toNat = w.2 := by
  induction ws generalizing m with
  | nil => cases hw
  | cons v ws ih =>
    obtain ⟨hv, hregs⟩ := List.nodup_cons.mp hregs
    rw [Memory.delivered_cons]
    rcases List.mem_cons.mp hw with rfl | hw
    · have hother : ∀ x ∈ ws, x.1.toNat ≠ w.1.toNat := fun x hx heq =>
        hv (BitVec.eq_of_toNat_eq heq ▸ List.mem_map_of_mem hx)
      rw [Memory.read_delivered_of_not_addressed ws _ _ hother, Memory.read_write_same]
    · exact ih hregs _ hw

theorem pulseL_ne_pulseH {ch : Nat} (h : IsChannel ch) : (pulseL ch).toNat ≠ (pulseH ch).toNat := by
  rw [pulseL_toNat h, pulseH_toNat h]
  omega

/-- No register is written twice by a command. -/
theorem State.commandWrites_regs_nodup (s : State) {ch : Nat} (hch : IsChannel ch) (deg : Int) :
    ((s.commandWrites ch deg).map Prod.fst).Nodup := by
  unfold State.commandWrites
  cases s.init with
  | true => exact channel_cases (P := fun ch => [pulseL ch, pulseH ch].Nodup) (by decide) hch
  | false =>
    exact channel_cases (P := fun ch => (initSequence.map Prod.fst ++ [pulseL ch, pulseH ch]).Nodup) (by decide) hch

/-- A `writeAngle` whose writes all answer OK leaves every byte it wrote in its register. -/
theorem State.chipReg_of_delivered {s t : State} {ch : Nat} {deg : Int} (hch : IsChannel ch)
    (hchip : t.chip = s.chip.delivered (s.commandWrites ch deg)) {w : Byte × Byte} (hw : w ∈ s.commandWrites ch deg) :
    t.chipReg w.1 = w.2 := by
  rw [State.chipReg, hchip]
  exact Memory.read_delivered (s.commandWrites_regs_nodup hch deg) _ hw

/-- The two channel writes are among those of the command, whatever INIT is. -/
theorem State.channelWrites_mem (s : State) (ch : Nat) (deg : Int) :
    (pulseL ch, lowByte (s.pulse (max deg 1))) ∈ s.commandWrites ch deg ∧
    (pulseH ch, highByte (s.pulse (max deg 1))) ∈ s.commandWrites ch deg :=
  ⟨List.mem_append_right _ (List.mem_cons_self ..),
    List.mem_append_right _ (List.mem_cons_of_mem _ (List.mem_cons_self ..))⟩

/-- Settles O38: a command writes no register twice, so each holds the byte the command delivered to it. -/
theorem chipHoldsTheDeliveredBytes : Obligations.ChipHoldsTheDeliveredBytes := by
  intro s ch deg rest hch hidle hanswers
  obtain ⟨t, hexec, _, _, _, _, _, _, hchip, _⟩ := exec_writeAngle_succeeds hidle hanswers
  obtain ⟨hlow, hhigh⟩ := s.channelWrites_mem ch deg
  refine ⟨t, hexec, State.chipReg_of_delivered hch hchip hlow, State.chipReg_of_delivered hch hchip hhigh,
    fun hinit w hw => ?initialized, fun a ha => ?others⟩
  case initialized =>
    exact State.chipReg_of_delivered hch hchip ((State.initSequence_prefix hinit ch deg).subset hw)
  case others =>
    rw [hchip]
    exact Memory.read_delivered_of_not_addressed _ _ a ha

/-- Settles O40: the failed second write leaves a free value in its register and the first byte delivered; a success
delivers both bytes of its pulse. -/
theorem tornChannelValueUntilTheNextSuccess : Obligations.TornChannelValueUntilTheNextSuccess := by
  intro s ch deg deg' rest hch hidle hinit hanswers
  obtain ⟨t, hexec, hidle', hhigh, hkept, hframe, hres, _, hchip, _⟩ :=
    exec_writeAngle_fails (before := [(pulseL ch, lowByte (s.pulse (max deg 1)))]) (after := []) hidle hanswers
      (State.commandWrites_initialized hinit ch deg)
  have hinit' : t.init = true := hhigh.mpr (Nat.le_succ 1)
  obtain ⟨u, hexec', _, _, _, _, _, _, hchip', _⟩ :=
    exec_writeAngle_succeeds (ch := ch) (deg := deg') (rest := rest) hidle'
      (by rw [State.commandWrites_initialized hinit']; exact hkept)
  obtain ⟨hlow, hhigh⟩ := t.channelWrites_mem ch deg'
  rw [hframe.pulse_eq] at hlow hhigh
  refine ⟨t, u, hexec, hres, ?lowByte, ?openByte, hexec', State.chipReg_of_delivered hch hchip' hlow,
    State.chipReg_of_delivered hch hchip' hhigh⟩
  case lowByte =>
    rw [State.chipReg, hchip, Memory.read_write_ne _ _ (pulseL_ne_pulseH hch)]
    exact Memory.read_write_same ..
  case openByte => rw [State.chipReg, hchip, Memory.read_write_same]

/-! ### The frame (42_angle.md R112) -/

theorem records_map_write (ws : List (Byte × Byte)) (r : TxResult) :
    (records ws r).map (·.write) = ws.map toDevice := by
  rw [records, List.map_map]
  rfl

theorem records_not_addressed {ws : List (Byte × Byte)} {r : TxResult} {a : Nat}
    (h : ∀ x ∈ records ws r, x.write.reg.toNat ≠ a) : ∀ w ∈ ws, w.1.toNat ≠ a :=
  fun _ hw => h _ (List.mem_map_of_mem hw)

theorem records_prefix {ws vs : List (Byte × Byte)} (h : ws <+: vs) (r : TxResult) : records ws r <+: records vs r :=
  h.map _

/-- INIT has risen only after the initialization writes. -/
theorem State.initSequence_prefix_of_raised {s t : State} {made : List (Byte × Byte)}
    (hinit : t.init = true ↔ s.init = true ∨ initSequence <+: made) (hne : t.init ≠ s.init) :
    initSequence <+: made := by
  cases hs : s.init with
  | true => exact absurd ((hinit.mpr (.inl hs)).trans hs.symm) hne
  | false =>
    have hhigh : t.init = true := by simpa [hs] using hne
    exact (hinit.mp hhigh).resolve_left (by simp [hs])

/-- What a `writeAngle` has done when its step ends, whatever the answers: the writes `made` are done, INIT is set if
it was or the initialization is among them, and either nothing else was answered or the next write failed. -/
theorem exec_writeAngle_made {s t : State} {ch : Nat} {deg : Int} (hidle : s.phase = .idle)
    (h : exec (.writeAngle ch deg) s = .next t) :
    ∃ made left, s.commandWrites ch deg = made ++ left ∧ s.Frame t ∧
      (t.init = true ↔ s.init = true ∨ initSequence <+: made) ∧
      ((t.busLog = s.busLog ++ records made .ok ∧ t.chip = s.chip.delivered made) ∨
       ∃ w after b, left = w :: after ∧ t.busLog = s.busLog ++ (records made .ok ++ [⟨toDevice w, .err⟩]) ∧
        t.chip = (s.chip.delivered made).write w.1.toNat b) := by
  obtain ⟨rest, hanswers⟩ | ⟨before, w, after, hwrites, ⟨rest, hanswers⟩ | hanswers⟩ :=
    answers_cases (s.commandWrites ch deg) s.answers
  · obtain ⟨u, hexec, _, hhigh, _, hframe, _, hlog, hchip, _⟩ := exec_writeAngle_succeeds hidle hanswers
    cases hexec.symm.trans h
    have hmade : s.init = true ∨ initSequence <+: s.commandWrites ch deg := by
      cases hs : s.init with
      | true => exact .inl rfl
      | false => exact .inr (State.initSequence_prefix hs ch deg)
    exact ⟨_, [], (List.append_nil _).symm, hframe, iff_of_true hhigh hmade, .inl ⟨hlog, hchip⟩⟩
  · obtain ⟨u, hexec, _, hinit, _, hframe, _, hlog, hchip, _⟩ := exec_writeAngle_fails hidle hanswers hwrites
    cases hexec.symm.trans h
    exact ⟨before, w :: after, hwrites, hframe, hinit.trans (State.left_le_two_iff hwrites),
      .inr ⟨w, after, _, rfl, hlog.trans (List.append_assoc ..), hchip⟩⟩
  · obtain ⟨u, hexec, _, hrem, hinit, hframe, _, hlog, hchip, _⟩ :=
      exec_writeAngle_ok_prefix (rest := []) hidle (hanswers.trans (List.append_nil _).symm) hwrites
    cases hexec.symm.trans h
    exact ⟨before, w :: after, hwrites, hframe.with_answers [],
      (hrem ▸ State.init_iff_remaining hinit).trans (State.left_le_two_iff hwrites), .inl ⟨hlog, hchip⟩⟩

/-- Settles O41: the writes logged are the first ones of the command, all OK or the last one ERR, and the chip has
taken them alone. -/
theorem writeAngleFrame : Obligations.WriteAngleFrame := by
  intro s t ch deg hidle h
  obtain ⟨made, left, hwrites, hframe, hinit, ⟨hlog, hchip⟩ | ⟨w, after, b, rfl, hlog, hchip⟩⟩ :=
    exec_writeAngle_made hidle h
  · refine ⟨hframe.mult, hframe.zoff, hframe.scale, fun hs => hinit.mpr (.inl hs), hframe.port, hframe.resetIn,
      hframe.chipEvents, _, hlog, ?madeWrites, fun hne => ?raised, fun a ha => ?others⟩
    case madeWrites =>
      rw [records_map_write, hwrites, List.map_append]
      exact List.prefix_append ..
    case raised => exact records_prefix (State.initSequence_prefix_of_raised hinit hne) .ok
    case others => rw [hchip, Memory.read_delivered_of_not_addressed _ _ a (records_not_addressed ha)]
  · refine ⟨hframe.mult, hframe.zoff, hframe.scale, fun hs => hinit.mpr (.inl hs), hframe.port, hframe.resetIn,
      hframe.chipEvents, _, hlog, ?madeAndFailedWrites, fun hne => ?raisedBefore, fun a ha => ?othersAfterFailure⟩
    case madeAndFailedWrites =>
      rw [List.map_append, records_map_write, hwrites]
      exact ⟨after.map toDevice, by simp⟩
    case raisedBefore =>
      exact (records_prefix (State.initSequence_prefix_of_raised hinit hne) .ok).trans (List.prefix_append ..)
    case othersAfterFailure =>
      obtain ⟨hmade, hfailed⟩ := List.forall_mem_append.mp ha
      have hw : a ≠ w.1.toNat := (List.forall_mem_singleton.mp hfailed).symm
      rw [hchip, Memory.read_write_ne _ _ hw,
        Memory.read_delivered_of_not_addressed _ _ a (records_not_addressed hmade)]

end Sys2Proof.Machine
end

section
/-! The values of the arithmetic: its widths (42_angle.md R111) and the pulses under the reset trims (R113). -/

namespace Sys2Proof.Machine

/-- The product of an angle and a 32-bit scale (42_angle.md R111). -/
theorem abs_scaled_le {d : Int} (hpos : 1 ≤ d) (hfits : d ≤ 2 ^ 31 - 1) (scale : Word32) :
    |d * scale.toInt| ≤ (2 ^ 31 - 1) * 2 ^ 31 := by
  have hscale : |scale.toInt| ≤ 2 ^ 31 := abs_le.mpr ⟨scale.le_toInt, scale.toInt_lt.le⟩
  have hangle : |d| ≤ 2 ^ 31 - 1 := abs_le.mpr ⟨by omega, hfits⟩
  rw [abs_mul]
  exact mul_le_mul hangle hscale (abs_nonneg _) (by norm_num)

theorem abs_wide_le {d : Int} (hpos : 1 ≤ d) (hfits : d ≤ 2 ^ 31 - 1) (scale : Word32) {mult : Nat}
    (hmult : mult ≤ 226) :
    |wide d scale.toInt mult| ≤ (2 ^ 31 - 1) * 2 ^ 31 * 226 := by
  have hmult' : |(mult : Int)| ≤ 226 := by rw [Nat.abs_cast]; exact_mod_cast hmult
  rw [wide, abs_mul]
  exact mul_le_mul (abs_scaled_le hpos hfits scale) hmult' (abs_nonneg _) (by norm_num)

/-- A value within the range of a signed word survives it. -/
theorem toInt_ofInt_of_abs_lt {n : Nat} {v : Int} (h : |v| < 2 ^ n) : (BitVec.ofInt (n + 1) v).toInt = v := by
  obtain ⟨hlo, hhi⟩ := abs_lt.mp h
  exact BitVec.toInt_ofInt_eq_self (Nat.succ_pos n) hlo.le hhi

/-- Settles O24: the bounds of the two products, and of the quotient they give. -/
theorem pipelineNeverOverflows : Obligations.PipelineNeverOverflows := by
  intro d scale mult zoff hpos hfits _ hmult _ hzoff
  have hscaled := abs_scaled_le hpos hfits scale
  have hwide := abs_wide_le hpos hfits scale hmult
  have hpulse : |pulseOf d scale.toInt mult zoff| < 2 ^ 57 := by
    obtain ⟨hlo, hhi⟩ := abs_le.mp hwide
    rw [pulseOf, floorDiv_divisor, abs_lt]
    omega
  exact ⟨hscaled, by omega, by omega, by omega, toInt_ofInt_of_abs_lt (n := 70) (by omega),
    toInt_ofInt_of_abs_lt (n := 57) hpulse⟩

/-- The pulse under the reset trims (42_angle.md R113). -/
theorem reset_pulse (d : Int) : State.reset.pulse d = 18080 * d / 10000 + 102 := by
  have hproduct : d * 80 * 226 = 18080 * d := by ring
  rw [State.pulse, pulseOf_eq, ← hproduct]
  rfl

theorem highByte_eq_zero_iff (p : Int) : highByte p = 0 ↔ p ≤ 255 := by
  refine ⟨fun h => not_lt.mp fun hgt => ?_, highByte_eq_zero⟩
  rw [highByte_eq_one hgt] at h
  simp at h

/-- Nine bits do not hold a pulse above 511. -/
theorem carried_eq_self_iff {p : Int} (h : 0 ≤ p) : (carried p : Int) = p ↔ p ≤ 511 := by
  refine ⟨fun hcarried => not_lt.mp fun hgt => ?_, carried_eq_self h⟩
  rw [carried_of_gt (by omega)] at hcarried
  omega

/-- Settles O25: by the formula for the reset trims, whose pulses are above 0 and pass 255 at 86 and 511 at 227. -/
theorem resetTrimsGiveTheListedPulses : Obligations.ResetTrimsGiveTheListedPulses := by
  refine ⟨fun d _ => ?formula, by decide, by decide, by decide, by decide, by decide, by decide, by decide,
    fun d hd => ?highBit, fun d hd => ?exact⟩
  case formula => rw [reset_pulse, Int.fdiv_eq_ediv_of_nonneg _ (by decide)]
  case highBit =>
    rw [highByte_eq_zero_iff, reset_pulse]
    omega
  case exact =>
    rw [carried_eq_self_iff (by rw [reset_pulse]; omega), reset_pulse]
    omega

end Sys2Proof.Machine
end

section
/-! The three setters, each as a whole (40_trim.md R80 to R82, R85). -/

namespace Sys2Proof.Machine

variable {w : CommandWord} {s : State}

/-! ### The words of the setters -/

theorem decode_of_rowSetMultiplier (h : rowSetMultiplier.Matches w) : decode w = .ok (.setMultiplier (Spec.arg w)) := by
  obtain ⟨hop, hch, hrsv⟩ := rowSetMultiplier_matches.mp h
  exact decode_eq_ok_iff.mpr ⟨hrsv, .inl ⟨hop, hch, rfl⟩⟩

theorem decode_of_rowSetZeroOffset (h : rowSetZeroOffset.Matches w) : decode w = .ok (.setZeroOffset (Spec.arg w)) := by
  obtain ⟨hop, hch, hrsv⟩ := rowSetZeroOffset_matches.mp h
  exact decode_eq_ok_iff.mpr ⟨hrsv, .inr (.inl ⟨hop, hch, rfl⟩)⟩

theorem decode_of_rowSetScaleFactor (h : rowSetScaleFactor.Matches w) :
    decode w = .ok (.setScaleFactor (Spec.arg w)) := by
  obtain ⟨hop, hch, hrsv⟩ := rowSetScaleFactor_matches.mp h
  exact decode_eq_ok_iff.mpr ⟨hrsv, .inr (.inr (.inl ⟨hop, hch, rfl⟩))⟩

/-! ### What the clamps store -/

theorem clamp_of_le {v lo hi : Int} (hlohi : lo ≤ hi) (h : v ≤ lo) : clamp v lo hi = lo := by
  rw [clamp, max_eq_right h, min_eq_left hlohi]

theorem clamp_of_ge {v lo hi : Int} (hlohi : lo ≤ hi) (h : hi ≤ v) : clamp v lo hi = hi := by
  rw [clamp, max_eq_left (hlohi.trans h), min_eq_right h]

theorem clampMultiplier_of_le {v : Int} (h : v ≤ 113) : clampMultiplier v = 113 := clamp_of_le (by decide) h

theorem clampMultiplier_of_ge {v : Int} (h : 226 ≤ v) : clampMultiplier v = 226 := clamp_of_ge (by decide) h

theorem clampZeroOffset_of_le {v : Int} (h : v ≤ 0x66) : clampZeroOffset v = 0x66 := clamp_of_le (by decide) h

theorem clampZeroOffset_of_ge {v : Int} (h : 0xCC ≤ v) : clampZeroOffset v = 0xCC := clamp_of_ge (by decide) h

/-- An OK given by an IDLE block, spelled out: the block stays IDLE. -/
theorem State.respondOk_of_idle (h : s.phase = .idle) :
    s.respondOk = { s with responses := s.responses ++ [0x0000] } := by
  cases s
  cases h
  rfl

/-- Settles O14: the row is that of `setMultiplier`, and the clamped value is stored. -/
theorem setMultiplierStoresTheClampedValue : Obligations.SetMultiplierStoresTheClampedValue := by
  refine ⟨fun w h => decode_of_rowSetMultiplier h, fun v s _ hidle => ?stored, rfl⟩
  case stored =>
    refine ⟨(s.storeMult v).mult, fun hlow => ?least, fun hhigh => ?greatest, fun hlo hhi => ?inside, ?next⟩
    case least => exact congrArg (BitVec.ofInt 8) (clampMultiplier_of_le (by omega))
    case greatest => exact congrArg (BitVec.ofInt 8) (clampMultiplier_of_ge (by omega))
    case inside => exact (s.storeMult_toNat v).trans (clamp_eq_self hlo hhi)
    case next => rw [exec_setMultiplier_idle hidle, State.respondOk_of_idle (s := s.storeMult v) hidle]; rfl

/-- Settles O15: the row is that of `setZeroOffset`, and the clamped value is stored; the fourth initialization write
does not depend on it. -/
theorem setZeroOffsetStoresTheClampedValue : Obligations.SetZeroOffsetStoresTheClampedValue := by
  refine ⟨fun w h => decode_of_rowSetZeroOffset h, fun v s _ hidle => ?stored,
    fun s ch deg hidle hlow hanswers => ?fourthWrite, rfl⟩
  case stored =>
    refine ⟨(s.storeZoff v).zoff, fun hlow => ?least, fun hhigh => ?greatest, fun hlo hhi => ?inside, ?next⟩
    case least => exact congrArg (BitVec.ofInt 8) (clampZeroOffset_of_le (by omega))
    case greatest => exact congrArg (BitVec.ofInt 8) (clampZeroOffset_of_ge (by omega))
    case inside => exact (s.storeZoff_toNat v).trans (clamp_eq_self hlo hhi)
    case next => rw [exec_setZeroOffset_idle hidle, State.respondOk_of_idle (s := s.storeZoff v) hidle]; rfl
  case fourthWrite =>
    obtain ⟨t, hexec, _, _, houtstanding, _⟩ := unansweredWriteStaysOutstanding s ch deg (initSequence.take 3) _
      (regAllOffL, initCenter) hidle (State.commandWrites_uninitialized hlow ch deg) hanswers
    exact ⟨t, hexec, houtstanding⟩

/-! ### The scale -/

/-- A negative scale gives a pulse below the zero offset, since the multiplier is positive. -/
theorem pulseOf_lt_zoff {d v mult zoff : Int} (hd : 1 ≤ d) (hv : v < 0) (hmult : 0 < mult) :
    pulseOf d v mult zoff < zoff := by
  have hwide : d * v * mult < 0 := mul_neg_of_neg_of_pos (mul_neg_of_pos_of_neg (by omega) hv) hmult
  rw [pulseOf_eq]
  omega

/-- Settles O16: the row is that of `setScaleFactor`, and its 32 bits read as the argument. -/
theorem setScaleFactorStoresVerbatim : Obligations.SetScaleFactorStoresVerbatim := by
  refine ⟨fun w h => decode_of_rowSetScaleFactor h, fun v s hv hidle => ?stored, ?negativePulse, rfl⟩
  case stored =>
    have hread : sint32 (BitVec.ofInt 32 v) = v := sint32_ofInt hv
    have hpulse (d : Int) :
        State.pulse { s with scale := BitVec.ofInt 32 v } d = pulseOf d v s.mult.toNat s.zoff.toNat := by
      rw [State.pulse, hread]
    refine ⟨BitVec.ofInt 32 v, hread, ?next, hpulse, fun hzero d => ?zero, fun hneg htrims d hd => ?negative⟩
    case next => rw [exec_setScaleFactor_idle hidle, State.respondOk_of_idle (s := s.storeScale v) hidle]; rfl
    case zero => rw [hpulse, hzero, pulseOf_eq]; simp
    case negative =>
      rw [hpulse]
      exact pulseOf_lt_zoff hd hneg (by omega)
  case negativePulse => exact ⟨{ State.reset with mult := 125, scale := -8240 }, by decide, by decide⟩

/-! ### The next command -/

/-- A `writeAngle` whose writes will all be answered OK writes the pulse of the trims the block holds. -/
theorem writesPulse_of_answers {t : State} {ch : Nat} {deg p : Int} {rest : List Answer} (hidle : t.phase = .idle)
    (hanswers : t.answers = List.replicate (if t.init then 2 else 8) .ok ++ rest) (hp : t.pulse (max deg 1) = p) :
    WritesPulse t ch deg p := by
  rw [← t.commandWrites_length ch deg] at hanswers
  obtain ⟨u, hexec, _, _, _, _, hres, hlog, _, _⟩ := exec_writeAngle_succeeds hidle hanswers
  exact ⟨u, hexec, hres, hp ▸ hlog⟩

/-- Settles O18: the setter leaves the chip and the answers, and the next pulse is that of the value it stored. -/
theorem setterTakesEffectForTheNextCommand : Obligations.SetterTakesEffectForTheNextCommand := by
  intro s ch deg v rest hidle hanswers hv
  refine ⟨⟨_, exec_setMultiplier_idle hidle v, rfl, writesPulse_of_answers rfl hanswers ?mult⟩,
    ⟨_, exec_setZeroOffset_idle hidle v, rfl, writesPulse_of_answers rfl hanswers ?zoff⟩,
    ⟨_, exec_setScaleFactor_idle hidle v, rfl, writesPulse_of_answers rfl hanswers ?scale⟩⟩
  case mult => exact congrArg (pulseOf _ _ · _) (s.storeMult_toNat v)
  case zoff => exact congrArg (pulseOf _ _ _ ·) (s.storeZoff_toNat v)
  case scale => exact congrArg (pulseOf _ · _ _) (sint32_ofInt hv)

end Sys2Proof.Machine
end

section
/-! The chip seen from the block: a failed write, an event from outside, a reset (20_memory.md R55;
70_reset_and_hazards.md R142 to R144, R148). -/

namespace Sys2Proof.Machine

theorem State.outstanding_eq_some_iff {s : State} {w : BusWrite} :
    s.outstanding = some w ↔ s.phase = .busy ∧ s.currentWrite = w := by
  rcases s.phase_cases with hidle | hbusy
  · simp [State.outstanding_idle hidle, hidle]
  · simp [State.outstanding_busy hbusy, hbusy]

/-- A register whose content is left open holds the free byte drawn; the others hold what they held. -/
theorem State.leaveOpen_chipReg (s : State) :
    s.leaveOpen.chipReg s.currentWrite.reg = Config.freeByte s.draws ∧
    ∀ a, a ≠ s.currentWrite.reg.toNat → s.leaveOpen.chip.read a = s.chip.read a :=
  ⟨Memory.read_write_same .., fun _ ha => Memory.read_write_ne _ _ ha⟩

/-- Settles O48: the ERR to the outstanding write leaves its register open and ends the command. -/
theorem failedWriteLeavesItsRegisterOpen : Obligations.FailedWriteLeavesItsRegisterOpen := by
  intro s w rest houtstanding hanswers hr he
  obtain ⟨hbusy, rfl⟩ := State.outstanding_eq_some_iff.mp houtstanding
  obtain ⟨hopen, hothers⟩ := (s.logWrite .err).leaveOpen_chipReg
  have hstep : step s = .next { s.transact .err with answers := rest } := by
    rw [step_busy hr he hbusy, State.resume, hanswers, State.serve_err hbusy]
  exact ⟨_, hstep, hopen, rfl, hothers, rfl, rfl, rfl, rfl, rfl, rfl, rfl, rfl⟩

/-- Settles O49: a write from outside, or the loss of the contents, changes the chip alone. -/
theorem chipEventsGoUnnoticed : Obligations.ChipEventsGoUnnoticed := by
  intro s e es hr he
  have hstep := step_chipEvent hr he
  cases e with
  | written reg val =>
    refine ⟨s.chip.write reg.toNat val, hstep, ?delivered, (fun h => nomatch h)⟩
    case delivered =>
      rintro _ _ ⟨⟩
      exact ⟨Memory.read_write_same .., fun _ ha => Memory.read_write_ne _ _ ha⟩
  | lost => exact ⟨s.chip.lose, hstep, (fun _ _ h => nomatch h), fun _ => Memory.read_lose s.chip⟩

/-- A `writeAngle` on an IDLE block with INIT at 0 and no answer yet waits for the first initialization write. -/
theorem exec_writeAngle_starts_init {s : State} (hidle : s.phase = .idle) (hlow : s.init = false)
    (hanswers : s.answers = []) (ch : Nat) (deg : Int) :
    ∃ u, exec (.writeAngle ch deg) s = .next u ∧ u.outstanding = some ⟨0x6A, 0xFE, Config.prescaleVal⟩ := by
  obtain ⟨u, hexec⟩ := exec_total (.writeAngle ch deg) s
  exact ⟨u, hexec, exec_writeAngle_outstanding hidle hanswers (State.commandWrites_uninitialized hlow ch deg) hexec⟩

/-- Settles O51: the elements take their reset values, and an outstanding write, if there is one, is logged as
abandoned and its register left open. -/
theorem resetAbandonsTheCommand : Obligations.ResetAbandonsTheCommand := by
  intro s hr
  have hnext := exec_writeAngle_starts_init (s := { s.applyReset with answers := [] }) rfl rfl rfl
  refine ⟨_, step_reset hr, rfl, rfl, rfl, rfl, rfl, rfl, s.applyReset_logs.2, ?port, rfl, fun hnone => ?nothing,
    fun w houtstanding => ?abandoned, hnext⟩
  case port =>
    rcases s.phase_cases with hidle | hbusy
    · rw [State.applyReset, State.abandonWrite_idle hidle]; rfl
    · rw [State.applyReset, State.abandonWrite_busy hbusy]; rfl
  case nothing =>
    rcases s.phase_cases with hidle | hbusy
    · rw [State.applyReset, State.abandonWrite_idle hidle]
      exact ⟨rfl, rfl⟩
    · simp [State.outstanding_busy hbusy] at hnone
  case abandoned =>
    obtain ⟨hbusy, rfl⟩ := State.outstanding_eq_some_iff.mp houtstanding
    obtain ⟨hopen, hothers⟩ := (s.logWrite .abandoned).leaveOpen_chipReg
    rw [State.applyReset, State.abandonWrite_busy hbusy]
    exact ⟨rfl, hopen, hothers⟩

end Sys2Proof.Machine
end

section
/-! STEP and the latches of an IDLE block are never read (10_state.md R29): whatever they hold, a command ends up in
the same state but for bytes of the latches that are computed before they are next read. -/

namespace Sys2Proof.Machine

/-- The two states are the same but for the latched bytes, and for these only before the channel phase, which computes
them. -/
def State.SameButStaleBytes (x y : State) : Prop :=
  ∃ l : Latches, y = { x with latch := l } ∧ l.ch = x.latch.ch ∧ l.d = x.latch.d ∧
    (x.seqStep.isInit = false → l = x.latch)

theorem State.SameButStaleBytes.refl (x : State) : x.SameButStaleBytes x := ⟨x.latch, rfl, rfl, rfl, fun _ => rfl⟩

theorem State.SameButStaleBytes.phase {x y : State} (h : x.SameButStaleBytes y) : y.phase = x.phase := by
  obtain ⟨l, rfl, _⟩ := h
  rfl

/-- An initialization write does not depend on the latches (41_init.md R91). -/
theorem writeAt_of_isInit {k : SeqStep} (h : k.isInit = true) (l l' : Latches) : writeAt l k = writeAt l' k := by
  cases k with
  | chLo => cases h
  | chHi => cases h
  | _ => rfl

theorem State.SameButStaleBytes.currentWrite {x y : State} (h : x.SameButStaleBytes y) :
    y.currentWrite = x.currentWrite := by
  obtain ⟨l, rfl, _, _, hchannel⟩ := h
  cases hstep : x.seqStep.isInit with
  | true => exact congrArg toDevice (writeAt_of_isInit hstep _ _)
  | false => rw [hchannel hstep]

theorem State.SameButStaleBytes.outstanding {x y : State} (h : x.SameButStaleBytes y) :
    y.outstanding = x.outstanding := by
  rw [State.outstanding, State.outstanding, h.phase, h.currentWrite]

theorem State.SameButStaleBytes.with_answers {x y : State} (h : x.SameButStaleBytes y) (as : List Answer) :
    State.SameButStaleBytes { x with answers := as } { y with answers := as } := by
  obtain ⟨l, rfl, hl⟩ := h
  exact ⟨l, rfl, hl⟩

/-- The answer to the outstanding write. -/
theorem State.SameButStaleBytes.transact {x y : State} (h : x.SameButStaleBytes y) (a : Answer) :
    (x.transact a).SameButStaleBytes (y.transact a) := by
  obtain ⟨⟨_, _, lo, hb⟩, rfl, rfl, rfl, hchannel⟩ := h
  cases hstep : x.seqStep.isInit with
  | false =>
    rw [hchannel hstep]
    exact .refl _
  | true =>
    obtain ⟨_, _, _, _, _, k⟩ := x
    cases k with
    | chLo => cases hstep
    | chHi => cases hstep
    | init6 =>
      cases a with
      | ok => exact ⟨_, rfl, rfl, rfl, fun _ => rfl⟩
      | err => exact ⟨_, rfl, rfl, rfl, fun h => nomatch h⟩
    | _ => cases a <;> exact ⟨_, rfl, rfl, rfl, fun h => nomatch h⟩

theorem State.SameButStaleBytes.serve {x y : State} (h : x.SameButStaleBytes y) (as : List Answer) :
    (x.serve as).SameButStaleBytes (y.serve as) := by
  induction as generalizing x y with
  | nil => exact h.with_answers []
  | cons a as ih =>
    rcases x.phase_cases with hidle | hbusy
    · rw [State.serve_cons_idle hidle, State.serve_cons_idle (h.phase.trans hidle)]
      exact h.with_answers (a :: as)
    · rw [State.serve_cons_busy hbusy, State.serve_cons_busy (h.phase.trans hbusy)]
      exact ih (h.transact a)

/-- Accepting a `writeAngle` latches everything but the bytes, and these too where the channel phase begins. -/
theorem State.acceptAngle_sameButStaleBytes (s : State) (k : SeqStep) (l : Latches) (ch : Nat) (deg : Int) :
    (s.acceptAngle ch deg).SameButStaleBytes (State.acceptAngle { s with seqStep := k, latch := l } ch deg) := by
  unfold State.acceptAngle
  cases s.init with
  | true => exact .refl _
  | false => exact ⟨{ l with ch := ch, d := floorAngle deg }, rfl, rfl, rfl, fun h => nomatch h⟩

/-! ### Commands and steps -/

/-- From `s`, with any STEP and latches, `g` goes on to states that differ in STEP and the latches alone, hold the same
outstanding write and, where BUSY, agree in all that is not computed before it is next read. -/
def IgnoresLatchesAt (g : State → Host.Outcome State Fault Refusal) (s : State) (k : SeqStep) (l : Latches) : Prop :=
  ∃ t k' l', g s = .next t ∧ g { s with seqStep := k, latch := l } = .next { t with seqStep := k', latch := l' } ∧
    State.outstanding { t with seqStep := k', latch := l' } = t.outstanding ∧
    (t.phase = .busy → k' = t.seqStep ∧ l'.ch = t.latch.ch ∧ l'.d = t.latch.d ∧
      (t.seqStep.isInit = false → l' = t.latch))

variable {g : State → Host.Outcome State Fault Refusal} {s t : State} {k : SeqStep} {l : Latches}

/-- Where the operation leaves the block IDLE, nothing reads what STEP and the latches then hold. -/
theorem IgnoresLatchesAt.of_idle {k' : SeqStep} {l' : Latches} (hidle : t.phase = .idle) (h : g s = .next t)
    (h' : g { s with seqStep := k, latch := l } = .next { t with seqStep := k', latch := l' }) :
    IgnoresLatchesAt g s k l := by
  refine ⟨t, k', l', h, h', ?_, fun hbusy => ?_⟩
  · rw [State.outstanding_idle hidle, State.outstanding_idle (s := { t with seqStep := k', latch := l' }) hidle]
  · cases hidle.symm.trans hbusy

theorem IgnoresLatchesAt.of_sameButStaleBytes {u : State} (hsame : t.SameButStaleBytes u) (h : g s = .next t)
    (h' : g { s with seqStep := k, latch := l } = .next u) : IgnoresLatchesAt g s k l := by
  have houtstanding := hsame.outstanding
  obtain ⟨l', rfl, hch, hd, hchannel⟩ := hsame
  exact ⟨t, t.seqStep, l', h, h', houtstanding, fun _ => ⟨rfl, hch, hd, hchannel⟩⟩

theorem exec_ignoresLatchesAt (i : Instr) (hidle : s.phase = .idle) (k : SeqStep) (l : Latches) :
    IgnoresLatchesAt (exec i) s k l := by
  cases i with
  | setMultiplier v =>
    exact .of_idle rfl (exec_setMultiplier_idle hidle v)
      (exec_setMultiplier_idle (s := { s with seqStep := k, latch := l }) hidle v)
  | setZeroOffset v =>
    exact .of_idle rfl (exec_setZeroOffset_idle hidle v)
      (exec_setZeroOffset_idle (s := { s with seqStep := k, latch := l }) hidle v)
  | setScaleFactor v =>
    exact .of_idle rfl (exec_setScaleFactor_idle hidle v)
      (exec_setScaleFactor_idle (s := { s with seqStep := k, latch := l }) hidle v)
  | writeAngle ch deg =>
    exact .of_sameButStaleBytes ((s.acceptAngle_sameButStaleBytes k l ch deg).serve s.answers)
      (exec_writeAngle_with_answers hidle ch deg s.answers)
      (exec_writeAngle_with_answers (s := { s with seqStep := k, latch := l }) hidle ch deg s.answers)

theorem runWord_ignoresLatchesAt (w : CommandWord) (hidle : s.phase = .idle) (k : SeqStep) (l : Latches) :
    IgnoresLatchesAt (runWord w) s k l := by
  unfold runWord
  cases decode w with
  | ok i => exact exec_ignoresLatchesAt i hidle k l
  | error _ => exact .of_idle (t := s.respondIllegal) rfl rfl rfl

/-- Settles O52: a reset, a chip event, an idle step and the word at the port, in turn. -/
theorem idleBlockIgnoresItsLatches : Obligations.IdleBlockIgnoresItsLatches := by
  refine fun s k l hidle => (?_ : IgnoresLatchesAt step s k l)
  cases hr : s.resetIn with
  | true =>
    have hsame : State.applyReset { s with seqStep := k, latch := l } = s.applyReset := by
      rw [State.applyReset, State.applyReset, State.abandonWrite_idle hidle,
        State.abandonWrite_idle (s := { s with seqStep := k, latch := l }) hidle]
      rfl
    have hstep := step_reset (s := { s with seqStep := k, latch := l }) hr
    exact .of_idle rfl (step_reset hr) (hstep.trans (congrArg _ hsame))
  | false =>
    cases he : s.chipEvents with
    | cons e es =>
      have hphase := (State.applyChipEvent_unanswered { s with chipEvents := es } e).2.trans hidle
      have hstep := step_chipEvent (s := { s with seqStep := k, latch := l }) hr he
      refine .of_idle (k' := k) (l' := l) hphase (step_chipEvent hr he) (hstep.trans ?_)
      cases e <;> rfl
    | nil =>
      cases hq : s.port with
      | nil =>
        exact .of_idle hidle (step_idle hr he hidle hq)
          (step_idle (s := { s with seqStep := k, latch := l }) hr he hidle hq)
      | cons w ws =>
        have hstep := step_word (s := { s with seqStep := k, latch := l }) hr he hidle hq
        obtain ⟨t, k', l', h, h', hrest⟩ := runWord_ignoresLatchesAt (s := { s with port := ws }) w hidle k l
        exact ⟨t, k', l', (step_word hr he hidle hq).trans h, hstep.trans h', hrest⟩

end Sys2Proof.Machine
end
